-- ==== Sys2Proof/Word.lean ====
section
/-! DEFINITION. The two scalar widths of MBCODEC (10_state.md R29; 00_scope.md R5, R6). -/

namespace Sys2Proof

/-- `u8`: the width of every wire symbol (R5, R29). -/
abbrev Byte := BitVec 8

/-- `u16`: addresses, counts, register values and the CRC (R5, R29). -/
abbrev Word := BitVec 16

end Sys2Proof
end

