-- ==== Sys2Proof/Config.lean ====
section
/-! DEFINITION. What an implementation of MBCODEC fixes (00_scope.md R5) and the values the spec leaves free
(43_serialize.md R151, R152; 70_reset_and_hazards.md R181). -/

namespace Sys2Proof

/-- The three parameters of rule R5 that are not numbers of the spec. Rule R5: "The model takes these parameters as
arguments". The host's step has no argument for them, so State holds them and no step changes them (log 1). -/
structure Params where
  /-- `OUT_CAP`: the capacity in bytes of `Out`, any natural number. -/
  outCap : Nat
  /-- `IN_CAP`: the largest input span; `none` is the unbounded model of rule R5. -/
  inCap : Option Nat
  /-- `BITS_CAP`: the largest bit or value sequence; `none` is the unbounded model of rule R5. -/
  bitsCap : Option Nat
deriving DecidableEq, Repr

/-- The reference value 256 of `OUT_CAP` and unbounded `IN_CAP` and `BITS_CAP` (R5). -/
def Params.reference : Params := { outCap := 256, inCap := none, bitsCap := none }

/-- A free value: the byte that draw number `draw` leaves at offset `offset` of `Out` where the spec says
"unspecified" (R151, R152, R181). It has no body, so no proof can see what it is (log 4). -/
opaque Config.freeByte (draw offset : Nat) : Byte

end Sys2Proof
end

