-- ==== Sys2Proof/Syntax.lean ====
section
/-! DEFINITION. The data model of MBCODEC's ports (10_state.md R30 to R34), its 26 instructions, one constructor for each
row of spec/opcode_table.json, and the words a host puts on the command port (30_encoding.md R75 to R79, R87). -/

namespace Sys2Proof

/-- `CommandHeader` (R30): the first two bytes of any frame. -/
structure CommandHeader where
  slaveAddress : Byte
  command : Byte
deriving DecidableEq, Repr

/-- `FunctionCode` (R31): the eight codes of the protocol. -/
inductive FunctionCode where
  | readCoils
  | readDiscreteInputs
  | readHoldingRegisters
  | readInputRegisters
  | writeSingleCoil
  | writeSingleHoldingRegister
  | writeMultipleCoils
  | writeMultipleHoldingRegisters
deriving DecidableEq, Repr

/-- `ExceptionCode` (R32): its eleven members. The member the spec calls None (0x00) is `noError` here, so that it is
never confused with an absent value. -/
inductive ExceptionCode where
  | noError
  | illegalFunction
  | illegalDataAddress
  | illegalDataValue
  | slaveDeviceFailure
  | acknowledge
  | slaveDeviceBusy
  | negativeAcknowledgement
  | memoryParityError
  | gatewayPathUnavailable
  | gatewayTargetFailedToRespond
deriving DecidableEq, Repr

/-- The seventeen payload variants of rule R33, in the order of their tags. An ErrorPayload carries a raw byte, because
rule R82 says what SERIALIZE does with a byte that is no member of ExceptionCode. -/
inductive Payload where
  | readCoilsRequest (startingAddress registerCount : Word)
  | readDiscreteInputsRequest (startingAddress registerCount : Word)
  | readRegistersRequest (startingAddress registerCount : Word)
  | readInputsRequest (startingAddress registerCount : Word)
  | readCoilsResponse (values : List Bool)
  | readDiscreteInputsResponse (values : List Bool)
  | readRegistersResponse (values : List Word)
  | readInputsResponse (values : List Word)
  | writeCoilRequest (address : Word) (value : Bool)
  | writeCoilResponse (address : Word) (value : Bool)
  | writeRegisterRequest (address value : Word)
  | writeRegisterResponse (address value : Word)
  | writeCoilsRequest (startingAddress : Word) (values : List Bool)
  | writeCoilsResponse (startingAddress count : Word)
  | writeRegistersRequest (startingAddress : Word) (values : List Word)
  | writeRegistersResponse (startingAddress count : Word)
  | errorPayload (errorCode : Byte)
deriving DecidableEq, Repr

/-- `Frame` (R34): a header and an optional payload; without one it is a header-only frame. -/
structure Frame where
  header : CommandHeader
  payload : Option Payload
deriving DecidableEq, Repr

/-- One constructor for each row of spec/opcode_table.json, in the table's order: the six commands (R78), the
pseudo-command (R87), the nine rows of PARSE's dispatch (R75) and the ten rows of SERIALIZE's dispatch (R76). A row of
PARSE carries the span it is issued on, with its function code byte left out where the row fixes it: `rest` is what
follows the function code, of any length. -/
inductive Instr where
  | crc16 (input : List Byte)
  | pack (bits : List Bool)
  | unpack (input : List Byte)
  | unpackMax (input : List Byte) (maxCount : Word)
  | parse (input : List Byte)
  | serialize (frame : Frame)
  | excresp (addr fc code : Byte)
  | parseReadCoils (slave : Byte) (rest : List Byte)
  | parseReadDiscreteInputs (slave : Byte) (rest : List Byte)
  | parseReadHoldingRegisters (slave : Byte) (rest : List Byte)
  | parseReadInputRegisters (slave : Byte) (rest : List Byte)
  | parseWriteSingleCoil (slave : Byte) (rest : List Byte)
  | parseWriteSingleHoldingRegister (slave : Byte) (rest : List Byte)
  | parseWriteMultipleCoils (slave : Byte) (rest : List Byte)
  | parseWriteMultipleHoldingRegisters (slave : Byte) (rest : List Byte)
  | parseIllegalFunction (slave fc : Byte) (rest : List Byte)
  | serializeErrorPayload (header : CommandHeader) (code : Byte)
  | serializeReadCoilsResponse (header : CommandHeader) (values : List Bool)
  | serializeReadDiscreteInputsResponse (header : CommandHeader) (values : List Bool)
  | serializeReadRegistersResponse (header : CommandHeader) (values : List Word)
  | serializeReadInputsResponse (header : CommandHeader) (values : List Word)
  | serializeWriteCoilResponse (header : CommandHeader) (address : Word) (value : Bool)
  | serializeWriteRegisterResponse (header : CommandHeader) (address value : Word)
  | serializeWriteCoilsResponse (header : CommandHeader) (startingAddress count : Word)
  | serializeWriteRegistersResponse (header : CommandHeader) (startingAddress count : Word)
  | serializeUnrenderable (frame : Frame)
deriving DecidableEq, Repr

/-- The frame port (R33, R77): the header, the payload tag 0 to 17 as a number, and one raw field for each kind of
field a variant has. A variant's fields stand in the order of rule R33's table: its first word in `word0`, its second
in `word1`; fields a variant does not have are not looked at (log 7). -/
structure FramePort where
  slaveAddress : Byte := 0
  command : Byte := 0
  tag : Byte := 0
  errorCode : Byte := 0
  word0 : Word := 0
  word1 : Word := 0
  flag : Bool := false
  bitValues : List Bool := []
  wordValues : List Word := []
deriving DecidableEq, Repr

/-- The operand ports of a command (R78, R79): a command looks only at the operands its row of rule R78 lists. -/
structure Ports where
  /-- `In`. -/
  input : List Byte := []
  /-- PACK's operand. -/
  bits : List Bool := []
  maxCount : Word := 0
  frame : FramePort := {}
deriving DecidableEq, Repr

/-- What a host issues: one transaction, in one of the four formats of spec/opcode_table.json's rows (log 6). Every
format names a command of rule R78; `PortWord.expand` of Decode.lean says which. -/
inductive PortWord where
  /-- Format CMD: a command opcode and its operands (R78, R79). -/
  | command (opcode : Byte) (ports : Ports)
  /-- The formats whose rows match on byte 1 of a span: PARSE of that span (R75). -/
  | request (span : List Byte)
  /-- The formats whose rows match on the payload tag: SERIALIZE of that frame (R76). -/
  | response (frame : FramePort)
  /-- The pseudo-command EXCRESP (R87). -/
  | pseudo (addr fc code : Byte)
deriving DecidableEq, Repr

/-- Why the decoder rejects a word. -/
inductive DecodeError where
  /-- A command opcode outside 0x01 to 0x06 (R83). -/
  | illegalOpcode (opcode : Byte)
  /-- A payload tag above 17: no variant has it (R33, R77). -/
  | illegalPayloadTag (tag : Byte)
  /-- A `request` word of fewer than two bytes: it has no byte 1 for the table's rows to match on. -/
  | noFunctionCode
deriving DecidableEq, Repr

end Sys2Proof
end

