-- ==== Sys2Proof/Machine/Codes.lean ====
section
/-! DEFINITION. The numbers of the protocol's enumerations (10_state.md R31 to R33). -/

namespace Sys2Proof

/-- The value of a function code (R31). -/
def FunctionCode.toByte : FunctionCode → Byte
  | .readCoils => 0x01
  | .readDiscreteInputs => 0x02
  | .readHoldingRegisters => 0x03
  | .readInputRegisters => 0x04
  | .writeSingleCoil => 0x05
  | .writeSingleHoldingRegister => 0x06
  | .writeMultipleCoils => 0x0F
  | .writeMultipleHoldingRegisters => 0x10

/-- Every function code, in the order of rule R31. -/
def FunctionCode.all : List FunctionCode :=
  [.readCoils, .readDiscreteInputs, .readHoldingRegisters, .readInputRegisters, .writeSingleCoil,
   .writeSingleHoldingRegister, .writeMultipleCoils, .writeMultipleHoldingRegisters]

/-- The function code a byte names, if it is one of the eight; all eight bits are compared (R69, R75, R112). -/
def FunctionCode.ofByte? (b : Byte) : Option FunctionCode :=
  FunctionCode.all.find? (fun c => c.toByte == b)

/-- The wire value of an exception code (R32). -/
def ExceptionCode.toByte : ExceptionCode → Byte
  | .noError => 0x00
  | .illegalFunction => 0x01
  | .illegalDataAddress => 0x02
  | .illegalDataValue => 0x03
  | .slaveDeviceFailure => 0x04
  | .acknowledge => 0x05
  | .slaveDeviceBusy => 0x06
  | .negativeAcknowledgement => 0x07
  | .memoryParityError => 0x08
  | .gatewayPathUnavailable => 0x0A
  | .gatewayTargetFailedToRespond => 0x0B

/-- Every exception code, in the order of rule R32. -/
def ExceptionCode.all : List ExceptionCode :=
  [.noError, .illegalFunction, .illegalDataAddress, .illegalDataValue, .slaveDeviceFailure, .acknowledge,
   .slaveDeviceBusy, .negativeAcknowledgement, .memoryParityError, .gatewayPathUnavailable,
   .gatewayTargetFailedToRespond]

/-- The member of ExceptionCode a byte is the wire value of, if any (R32, R82). -/
def ExceptionCode.ofByte? (b : Byte) : Option ExceptionCode :=
  ExceptionCode.all.find? (fun c => c.toByte == b)

/-- The tag of a payload variant (R33). -/
def Payload.tag : Payload → Byte
  | .readCoilsRequest _ _ => 1
  | .readDiscreteInputsRequest _ _ => 2
  | .readRegistersRequest _ _ => 3
  | .readInputsRequest _ _ => 4
  | .readCoilsResponse _ => 5
  | .readDiscreteInputsResponse _ => 6
  | .readRegistersResponse _ => 7
  | .readInputsResponse _ => 8
  | .writeCoilRequest _ _ => 9
  | .writeCoilResponse _ _ => 10
  | .writeRegisterRequest _ _ => 11
  | .writeRegisterResponse _ _ => 12
  | .writeCoilsRequest _ _ => 13
  | .writeCoilsResponse _ _ => 14
  | .writeRegistersRequest _ _ => 15
  | .writeRegistersResponse _ _ => 16
  | .errorPayload _ => 17

/-- The tag of a frame: 0 for a header-only frame (R34), else its payload's. -/
def Frame.tag (f : Frame) : Byte :=
  match f.payload with
  | none => 0
  | some p => p.tag

/-- The tags SERIALIZE has no rendering for (R76, R147). -/
def unrenderableTags : List Byte := [0, 1, 2, 3, 4, 9, 11, 13, 15]

end Sys2Proof
end

