-- ==== Sys2Proof/WellFormed.lean ====
section
/-! DEFINITION. When an instruction stands for a word of its own row of spec/opcode_table.json. Operand widths are in the
types; two rows have a match that a type does not say. -/

namespace Sys2Proof

/-- PARSE.IllegalFunction matches a byte 1 that is none of the eight function codes (R80, R121); SERIALIZE.Unrenderable
matches the nine tags without a rendering (R147). Every other instruction is well-formed as it stands. -/
def Instr.wf : Instr → Bool
  | .crc16 _ => true
  | .pack _ => true
  | .unpack _ => true
  | .unpackMax _ _ => true
  | .parse _ => true
  | .serialize _ => true
  | .excresp _ _ _ => true
  | .parseReadCoils _ _ => true
  | .parseReadDiscreteInputs _ _ => true
  | .parseReadHoldingRegisters _ _ => true
  | .parseReadInputRegisters _ _ => true
  | .parseWriteSingleCoil _ _ => true
  | .parseWriteSingleHoldingRegister _ _ => true
  | .parseWriteMultipleCoils _ _ => true
  | .parseWriteMultipleHoldingRegisters _ _ => true
  | .parseIllegalFunction _ fc _ => (FunctionCode.ofByte? fc).isNone
  | .serializeErrorPayload _ _ => true
  | .serializeReadCoilsResponse _ _ => true
  | .serializeReadDiscreteInputsResponse _ _ => true
  | .serializeReadRegistersResponse _ _ => true
  | .serializeReadInputsResponse _ _ => true
  | .serializeWriteCoilResponse _ _ _ => true
  | .serializeWriteRegisterResponse _ _ _ => true
  | .serializeWriteCoilsResponse _ _ _ => true
  | .serializeWriteRegistersResponse _ _ _ => true
  | .serializeUnrenderable f => unrenderableTags.contains f.tag

end Sys2Proof
end

