-- ==== Sys2Proof/Decode.lean ====
section
/-! DEFINITION. The decoder of the command port's words, total and rejecting by name (30_encoding.md R75 to R79, R83,
R87), and the encoder, written from the same tables. -/

namespace Sys2Proof

/-- The frame on the frame port, by its tag (R33, R77); `none` for a tag above 17. -/
def FramePort.toFrame? (f : FramePort) : Option Frame :=
  let h : CommandHeader := { slaveAddress := f.slaveAddress, command := f.command }
  match f.tag.toNat with
  | 0 => some { header := h, payload := none }
  | 1 => some { header := h, payload := some (.readCoilsRequest f.word0 f.word1) }
  | 2 => some { header := h, payload := some (.readDiscreteInputsRequest f.word0 f.word1) }
  | 3 => some { header := h, payload := some (.readRegistersRequest f.word0 f.word1) }
  | 4 => some { header := h, payload := some (.readInputsRequest f.word0 f.word1) }
  | 5 => some { header := h, payload := some (.readCoilsResponse f.bitValues) }
  | 6 => some { header := h, payload := some (.readDiscreteInputsResponse f.bitValues) }
  | 7 => some { header := h, payload := some (.readRegistersResponse f.wordValues) }
  | 8 => some { header := h, payload := some (.readInputsResponse f.wordValues) }
  | 9 => some { header := h, payload := some (.writeCoilRequest f.word0 f.flag) }
  | 10 => some { header := h, payload := some (.writeCoilResponse f.word0 f.flag) }
  | 11 => some { header := h, payload := some (.writeRegisterRequest f.word0 f.word1) }
  | 12 => some { header := h, payload := some (.writeRegisterResponse f.word0 f.word1) }
  | 13 => some { header := h, payload := some (.writeCoilsRequest f.word0 f.bitValues) }
  | 14 => some { header := h, payload := some (.writeCoilsResponse f.word0 f.word1) }
  | 15 => some { header := h, payload := some (.writeRegistersRequest f.word0 f.wordValues) }
  | 16 => some { header := h, payload := some (.writeRegistersResponse f.word0 f.word1) }
  | 17 => some { header := h, payload := some (.errorPayload f.errorCode) }
  | _ => none

/-- Format CMD: the command opcode selects the command (R78); any other opcode is illegal (R83). -/
def decodeCommand (opcode : Byte) (p : Ports) : Except DecodeError Instr :=
  match opcode.toNat with
  | 0x01 => .ok (.crc16 p.input)
  | 0x02 => .ok (.pack p.bits)
  | 0x03 => .ok (.unpack p.input)
  | 0x04 => .ok (.unpackMax p.input p.maxCount)
  | 0x05 => .ok (.parse p.input)
  | 0x06 =>
    match p.frame.toFrame? with
    | some f => .ok (.serialize f)
    | none => .error (.illegalPayloadTag p.frame.tag)
  | _ => .error (.illegalOpcode opcode)

/-- The row of PARSE a function code byte selects (R75, R113). -/
def decodeRequestRow (slave fc : Byte) (rest : List Byte) : Instr :=
  match FunctionCode.ofByte? fc with
  | some .readCoils => .parseReadCoils slave rest
  | some .readDiscreteInputs => .parseReadDiscreteInputs slave rest
  | some .readHoldingRegisters => .parseReadHoldingRegisters slave rest
  | some .readInputRegisters => .parseReadInputRegisters slave rest
  | some .writeSingleCoil => .parseWriteSingleCoil slave rest
  | some .writeSingleHoldingRegister => .parseWriteSingleHoldingRegister slave rest
  | some .writeMultipleCoils => .parseWriteMultipleCoils slave rest
  | some .writeMultipleHoldingRegisters => .parseWriteMultipleHoldingRegisters slave rest
  | none => .parseIllegalFunction slave fc rest

/-- The row of SERIALIZE a payload variant selects (R76). -/
def decodeResponseRow (f : Frame) : Instr :=
  match f.payload with
  | some (.errorPayload c) => .serializeErrorPayload f.header c
  | some (.readCoilsResponse vs) => .serializeReadCoilsResponse f.header vs
  | some (.readDiscreteInputsResponse vs) => .serializeReadDiscreteInputsResponse f.header vs
  | some (.readRegistersResponse vs) => .serializeReadRegistersResponse f.header vs
  | some (.readInputsResponse vs) => .serializeReadInputsResponse f.header vs
  | some (.writeCoilResponse a v) => .serializeWriteCoilResponse f.header a v
  | some (.writeRegisterResponse a v) => .serializeWriteRegisterResponse f.header a v
  | some (.writeCoilsResponse a n) => .serializeWriteCoilsResponse f.header a n
  | some (.writeRegistersResponse a n) => .serializeWriteRegistersResponse f.header a n
  | none
  | some (.readCoilsRequest _ _)
  | some (.readDiscreteInputsRequest _ _)
  | some (.readRegistersRequest _ _)
  | some (.readInputsRequest _ _)
  | some (.writeCoilRequest _ _)
  | some (.writeRegisterRequest _ _)
  | some (.writeCoilsRequest _ _)
  | some (.writeRegistersRequest _ _) => .serializeUnrenderable f

/-- The instruction a word of the command port stands for. -/
def decode : PortWord → Except DecodeError Instr
  | .command opcode p => decodeCommand opcode p
  | .request (slave :: fc :: rest) => .ok (decodeRequestRow slave fc rest)
  | .request _ => .error .noFunctionCode
  | .response f =>
    match f.toFrame? with
    | some fr => .ok (decodeResponseRow fr)
    | none => .error (.illegalPayloadTag f.tag)
  | .pseudo addr fc code => .ok (.excresp addr fc code)

/-- A frame on the frame port: its tag and its fields (R33); a field the variant does not have is zero or empty. -/
def FramePort.ofFrame (f : Frame) : FramePort :=
  let base : FramePort :=
    { slaveAddress := f.header.slaveAddress, command := f.header.command, tag := f.tag }
  match f.payload with
  | none => base
  | some (.readCoilsRequest a n) => { base with word0 := a, word1 := n }
  | some (.readDiscreteInputsRequest a n) => { base with word0 := a, word1 := n }
  | some (.readRegistersRequest a n) => { base with word0 := a, word1 := n }
  | some (.readInputsRequest a n) => { base with word0 := a, word1 := n }
  | some (.readCoilsResponse vs) => { base with bitValues := vs }
  | some (.readDiscreteInputsResponse vs) => { base with bitValues := vs }
  | some (.readRegistersResponse vs) => { base with wordValues := vs }
  | some (.readInputsResponse vs) => { base with wordValues := vs }
  | some (.writeCoilRequest a v) => { base with word0 := a, flag := v }
  | some (.writeCoilResponse a v) => { base with word0 := a, flag := v }
  | some (.writeRegisterRequest a v) => { base with word0 := a, word1 := v }
  | some (.writeRegisterResponse a v) => { base with word0 := a, word1 := v }
  | some (.writeCoilsRequest a vs) => { base with word0 := a, bitValues := vs }
  | some (.writeCoilsResponse a n) => { base with word0 := a, word1 := n }
  | some (.writeRegistersRequest a vs) => { base with word0 := a, wordValues := vs }
  | some (.writeRegistersResponse a n) => { base with word0 := a, word1 := n }
  | some (.errorPayload c) => { base with errorCode := c }

/-- The frame a response row renders, on the frame port. -/
def encodeResponse (h : CommandHeader) (p : Payload) : PortWord :=
  .response (.ofFrame { header := h, payload := some p })

/-- The word of an instruction: its command opcode and operands (R78), or the bytes or the tag its row matches on
(R75, R76). -/
def encode : Instr → PortWord
  | .crc16 input => .command 0x01 { input := input }
  | .pack bits => .command 0x02 { bits := bits }
  | .unpack input => .command 0x03 { input := input }
  | .unpackMax input m => .command 0x04 { input := input, maxCount := m }
  | .parse input => .command 0x05 { input := input }
  | .serialize f => .command 0x06 { frame := .ofFrame f }
  | .excresp addr fc code => .pseudo addr fc code
  | .parseReadCoils slave rest => .request (slave :: 0x01 :: rest)
  | .parseReadDiscreteInputs slave rest => .request (slave :: 0x02 :: rest)
  | .parseReadHoldingRegisters slave rest => .request (slave :: 0x03 :: rest)
  | .parseReadInputRegisters slave rest => .request (slave :: 0x04 :: rest)
  | .parseWriteSingleCoil slave rest => .request (slave :: 0x05 :: rest)
  | .parseWriteSingleHoldingRegister slave rest => .request (slave :: 0x06 :: rest)
  | .parseWriteMultipleCoils slave rest => .request (slave :: 0x0F :: rest)
  | .parseWriteMultipleHoldingRegisters slave rest => .request (slave :: 0x10 :: rest)
  | .parseIllegalFunction slave fc rest => .request (slave :: fc :: rest)
  | .serializeErrorPayload h c => encodeResponse h (.errorPayload c)
  | .serializeReadCoilsResponse h vs => encodeResponse h (.readCoilsResponse vs)
  | .serializeReadDiscreteInputsResponse h vs => encodeResponse h (.readDiscreteInputsResponse vs)
  | .serializeReadRegistersResponse h vs => encodeResponse h (.readRegistersResponse vs)
  | .serializeReadInputsResponse h vs => encodeResponse h (.readInputsResponse vs)
  | .serializeWriteCoilResponse h a v => encodeResponse h (.writeCoilResponse a v)
  | .serializeWriteRegisterResponse h a v => encodeResponse h (.writeRegisterResponse a v)
  | .serializeWriteCoilsResponse h a n => encodeResponse h (.writeCoilsResponse a n)
  | .serializeWriteRegistersResponse h a n => encodeResponse h (.writeRegistersResponse a n)
  | .serializeUnrenderable f => .response (.ofFrame f)

/-- The frame EXCRESP expands to (R87): `{addr, fc OR 0x80 | ErrorPayload{error_code: code}}`. -/
def excrespFrame (addr fc code : Byte) : Frame :=
  { header := { slaveAddress := addr, command := fc ||| 0x80 }, payload := some (.errorPayload code) }

/-- The command of rule R78 that a word issues, in format CMD. -/
def PortWord.expand : PortWord → PortWord
  | .command opcode p => .command opcode p
  | .request span => .command 0x05 { input := span }
  | .response f => .command 0x06 { frame := f }
  | .pseudo addr fc code => .command 0x06 { frame := .ofFrame (excrespFrame addr fc code) }

/-- The command of rule R78 that an instruction is a row of. -/
def Instr.toCommand : Instr → Instr
  | .crc16 input => .crc16 input
  | .pack bits => .pack bits
  | .unpack input => .unpack input
  | .unpackMax input m => .unpackMax input m
  | .parse input => .parse input
  | .serialize f => .serialize f
  | .excresp addr fc code => .serialize (excrespFrame addr fc code)
  | .parseReadCoils slave rest => .parse (slave :: 0x01 :: rest)
  | .parseReadDiscreteInputs slave rest => .parse (slave :: 0x02 :: rest)
  | .parseReadHoldingRegisters slave rest => .parse (slave :: 0x03 :: rest)
  | .parseReadInputRegisters slave rest => .parse (slave :: 0x04 :: rest)
  | .parseWriteSingleCoil slave rest => .parse (slave :: 0x05 :: rest)
  | .parseWriteSingleHoldingRegister slave rest => .parse (slave :: 0x06 :: rest)
  | .parseWriteMultipleCoils slave rest => .parse (slave :: 0x0F :: rest)
  | .parseWriteMultipleHoldingRegisters slave rest => .parse (slave :: 0x10 :: rest)
  | .parseIllegalFunction slave fc rest => .parse (slave :: fc :: rest)
  | .serializeErrorPayload h c => .serialize { header := h, payload := some (.errorPayload c) }
  | .serializeReadCoilsResponse h vs => .serialize { header := h, payload := some (.readCoilsResponse vs) }
  | .serializeReadDiscreteInputsResponse h vs =>
    .serialize { header := h, payload := some (.readDiscreteInputsResponse vs) }
  | .serializeReadRegistersResponse h vs => .serialize { header := h, payload := some (.readRegistersResponse vs) }
  | .serializeReadInputsResponse h vs => .serialize { header := h, payload := some (.readInputsResponse vs) }
  | .serializeWriteCoilResponse h a v => .serialize { header := h, payload := some (.writeCoilResponse a v) }
  | .serializeWriteRegisterResponse h a v => .serialize { header := h, payload := some (.writeRegisterResponse a v) }
  | .serializeWriteCoilsResponse h a n => .serialize { header := h, payload := some (.writeCoilsResponse a n) }
  | .serializeWriteRegistersResponse h a n =>
    .serialize { header := h, payload := some (.writeRegistersResponse a n) }
  | .serializeUnrenderable f => .serialize f

/-- The longest request frame: 9 + 255 bytes (R64, R126). -/
def longestRequest : Nat := 264

/-- The `n` bytes of a number, the least significant first. -/
def bytesOfNat : Nat → Nat → List Byte
  | 0, _ => []
  | n + 1, w => BitVec.ofNat 8 w :: bytesOfNat n (w / 256)

/-- The word of the command port that spec/opcode_table.json's numbering gives (log 8): a row of 8 bits numbers the
command opcode, and every operand is zero or empty; a longer row numbers the bytes of a request span, followed by zero
bytes up to the longest request. -/
def tableWord (nbits w : Nat) : PortWord :=
  if nbits ≤ 8 then .command (BitVec.ofNat 8 w) {}
  else
    let span := bytesOfNat (nbits / 8) w
    .request (span ++ List.replicate (longestRequest - span.length) 0)

/-- The instruction the decoder reads from a word numbered as spec/opcode_table.json numbers it. -/
def decodeTableWord (nbits w : Nat) : Option Instr :=
  match decode (tableWord nbits w) with
  | .ok i => some i
  | .error _ => none

end Sys2Proof
end

