-- ==== Sys2Proof/Machine/State.lean ====
section
/-! DEFINITION. The state of MBCODEC between two commands, as plain data, and the reasons a step can stop. -/

namespace Sys2Proof.Machine

/-- The result of PARSE (R36). -/
structure ParseResult where
  code : ExceptionCode
  frame : Option Frame
  bytesRead : Nat
deriving DecidableEq, Repr

/-- What a command delivers on the result port when it completes (R78). -/
inductive Result where
  /-- CRC16: `crc: u16`. -/
  | crc (value : Word)
  /-- PACK: a byte sequence. -/
  | bytes (bs : List Byte)
  /-- UNPACK and UNPACK_MAX: a bool sequence. -/
  | bits (bs : List Bool)
  /-- PARSE: `(code, frame, bytes_read)` (R36). -/
  | parsed (r : ParseResult)
  /-- SERIALIZE: `(success, bytes_written)` (R37); `Out` is a field of its own. -/
  | serialized (success : Bool) (bytesWritten : Nat)
deriving DecidableEq, Repr

/-- The three classes of a PARSE result (R38). -/
inductive ParseClass where
  | incomplete
  | rejected (code : ExceptionCode)
  | ok (frame : Frame)
deriving DecidableEq, Repr

/-- The working state inside one command (R26 to R28): "created at the start of each command and discarded at its end".
Between two commands it holds its start values (R39). -/
structure WorkingState where
  /-- The CRC accumulator (R26). -/
  crc : Word
  /-- PACK's byte accumulator (R27). -/
  packAcc : Byte
  /-- PACK's and UNPACK's bit position (R27). -/
  bitPos : Fin 8
  /-- UNPACK's byte index (R27). -/
  byteIndex : Nat
  /-- PARSE's offset into `In` (R28). -/
  parseOffset : Nat
  /-- PARSE's payload end `p` (R28). -/
  payloadEnd : Nat
  /-- SERIALIZE's write offset into `Out` (R28). -/
  writeOffset : Nat
  /-- SERIALIZE's offset of the byte-count placeholder (R28). -/
  countOffset : Nat
deriving DecidableEq, Repr

/-- The values every command starts from (R39). -/
def WorkingState.start : WorkingState :=
  { crc := 0xFFFF, packAcc := 0, bitPos := 0, byteIndex := 0, parseOffset := 0, payloadEnd := 0, writeOffset := 0,
    countOffset := 0 }

/-- How a host touches the buffers of a command in progress (R53, R185). -/
inductive BufferAccess where
  | readOperand
  | writeOperand
  | readOut
  | writeOut
deriving DecidableEq, Repr

/-- What the host does between a command's issue and its completion. -/
inductive During where
  /-- Nothing: the host waits for completion (R184, R185). -/
  | quiet
  /-- It issues another command (R184). -/
  | anotherCommand
  /-- It resets the block (R181). -/
  | reset
  /-- It reads or writes an operand or `Out` (R53, R185). -/
  | bufferAccess (a : BufferAccess)
deriving DecidableEq, Repr

/-- One interaction of the host with the block (R191). -/
inductive HostEvent where
  /-- It issues a command, and does this until the command completes. -/
  | issue (word : PortWord) (during : During)
  /-- It resets the idle block (R180). -/
  | reset
  /-- It writes a byte of its own buffer `Out` while the block is idle. -/
  | writeOut (offset : Nat) (value : Byte)
deriving DecidableEq, Repr

/-- The contents of `Out`: one cell for each offset whose byte is known, offsets strictly rising. An offset with no
cell has no value (log 3). -/
abbrev Memory := List Host.Cell

/-- The one definition of what an unlisted offset of `Out` reads as: no value, since nothing says what it holds. -/
def Memory.unlisted : Option Byte := none

/-- The canonical form: offsets strictly rising. No cell can equal what an unlisted offset reads as. -/
def Memory.wf : Memory → Bool
  | [] => true
  | [_] => true
  | c :: d :: m => c.1 < d.1 && Memory.wf (d :: m)

/-- The machine between two commands. Rule R20 gives it no persistent architectural state; what stands here is what a
host and the block exchange, and the working state at its start values. -/
structure State where
  /-- The parameters of rule R5; no step changes them. -/
  params : Params
  /-- What the host does next, oldest first: the block acts on the head (R184, R191). -/
  host : List HostEvent
  /-- The output buffer `Out` (R42). -/
  out : Memory
  /-- The result port (R23, R36, R37): the last completed command's results. -/
  result : Option Result
  /-- The working state (R26 to R28), at its start values between two commands (R39). -/
  work : WorkingState
  /-- The model's own: how many times `Out` has been made unspecified (log 4). -/
  draws : Nat
deriving DecidableEq, Repr

/-- Right after reset (R39, R180, R182): idle, with a buffer of the reference capacity and unknown content, no result
delivered, and nothing yet done by the host. -/
def State.reset : State :=
  { params := Params.reference, host := [], out := [], result := none, work := WorkingState.start, draws := 0 }

/-- Why the machine has no step. The block itself raises no fault (R160); both are the host's doing. -/
inductive Fault where
  /-- The host touched an operand or `Out` while a command was in progress: "The model gives that run no step" (R53,
  R185). Raised by `hostEvent`. Safe: the model stops where hardware may go on. -/
  | bufferAccessDuringCommand (a : BufferAccess)
  /-- The host wrote `Out` at an offset that does not exist (R42). Raised by `hostEvent`. Safe: no such byte exists. -/
  | noSuchOutOffset (offset : Nat)
deriving DecidableEq, Repr

/-- Why a command is refused and gets no result (R164). -/
inductive Refusal where
  /-- An instruction without a meaning in this model: none is left. Safe. -/
  | notModelled (mnemonic : String)
  /-- A command opcode outside 0x01 to 0x06 (R83). Raised by `hostEvent` for the decoder. Safe. -/
  | illegalOpcode (opcode : Byte)
  /-- A payload tag that names no variant (R33). Raised by `hostEvent` for the decoder. Safe. -/
  | illegalPayloadTag (tag : Byte)
  /-- A request word without a byte 1. Raised by `hostEvent` for the decoder. Safe. -/
  | noFunctionCode
  /-- SERIALIZE of an ErrorPayload whose byte is no ExceptionCode (R82, R142). Raised by the meanings of SERIALIZE and
  EXCRESP. Safe. -/
  | notAnExceptionCode (code : Byte)
  /-- An operand longer than `IN_CAP` or `BITS_CAP` (R5, R164). Raised by the meanings. Safe. -/
  | operandTooLong (length : Nat)
  /-- A command issued while another is in progress (R184). Raised by `hostEvent`. Safe. -/
  | commandInProgress
deriving DecidableEq, Repr

/-- What a meaning answers. -/
abbrev StepOutcome := Host.Outcome State Fault Refusal

end Sys2Proof.Machine
end

