-- ==== Sys2Proof/Machine/Operands.lean ====
section
/-! DEFINITION. How operands are read: bytes and words of the input span (20_memory.md R40, R44, R56), the big-endian
assembly of rule R6, packed bits (R46), and the length limits of rule R5. -/

namespace Sys2Proof.Machine

/-- `hi8(w)` (R6). -/
def hi8 (w : Word) : Byte := w.extractLsb' 8 8

/-- `lo8(w)` (R6). -/
def lo8 (w : Word) : Byte := w.extractLsb' 0 8

/-- `BE16(h, l)` (R6, R44). -/
def be16 (h l : Byte) : Word := (h.setWidth 16 <<< 8) ||| l.setWidth 16

/-- `swap16(w)` (R6). -/
def swap16 (w : Word) : Word := be16 (lo8 w) (hi8 w)

/-- A `u16` field on the wire: the high byte at the lower offset (R44, R70). -/
def wordBytes (w : Word) : List Byte := [hi8 w, lo8 w]

/-- `In[k]`. The default is never seen: every rule checks `k < InLen` first (R6). -/
def byteAt (input : List Byte) (k : Nat) : Byte := input.getD k 0

/-- `BE16(In[k], In[k+1])` (R70). -/
def wordAt (input : List Byte) (k : Nat) : Word := be16 (byteAt input k) (byteAt input (k + 1))

/-- `MemRead(a, n)`: the bytes `In[a .. a+n)` (R6). -/
def memRead (input : List Byte) (a n : Nat) : List Byte := (input.drop a).take n

/-- The big-endian words of a byte sequence, two bytes each; an odd last byte is in none (R74, R120). -/
def wordsOf : List Byte → List Word
  | h :: l :: rest => be16 h l :: wordsOf rest
  | _ => []

/-- The header of a span: its first two bytes (R30, R112). -/
def headerOf (input : List Byte) : CommandHeader :=
  { slaveAddress := byteAt input 0, command := byteAt input 1 }

/-- `ceil8(n)` (R6). -/
def ceil8 (n : Nat) : Nat := (n + 7) / 8

/-- The value `true` or `false` of a coil on the wire (R72). -/
def coilWord (b : Bool) : Word := if b then 0xFF00 else 0x0000

/-- Whether a length is within a limit; without a limit every length is (R5). -/
def withinCap (cap : Option Nat) (n : Nat) : Bool :=
  match cap with
  | none => true
  | some c => n ≤ c

/-- The length of the value sequence a frame carries, 0 where it carries none (R5, R41). -/
def frameValueCount (f : Frame) : Nat :=
  match f.payload with
  | some (.readCoilsResponse vs) => vs.length
  | some (.readDiscreteInputsResponse vs) => vs.length
  | some (.readRegistersResponse vs) => vs.length
  | some (.readInputsResponse vs) => vs.length
  | some (.writeCoilsRequest _ vs) => vs.length
  | some (.writeRegistersRequest _ vs) => vs.length
  | none
  | some (.readCoilsRequest _ _)
  | some (.readDiscreteInputsRequest _ _)
  | some (.readRegistersRequest _ _)
  | some (.readInputsRequest _ _)
  | some (.writeCoilRequest _ _)
  | some (.writeCoilResponse _ _)
  | some (.writeRegisterRequest _ _)
  | some (.writeRegisterResponse _ _)
  | some (.writeCoilsResponse _ _)
  | some (.writeRegistersResponse _ _)
  | some (.errorPayload _) => 0

end Sys2Proof.Machine
end

