-- ==== Sys2Proof/Machine/Flags.lean ====
section
/-! DEFINITION. MBCODEC has no flags (10_state.md R23): a command's status is in its results. This file holds what a
host reads off a result: the class of a PARSE result (R38) and how far it moves its cursor (70_reset_and_hazards.md R187
to R189). -/

namespace Sys2Proof.Machine

/-- The class of a PARSE result, from the result alone (R38). -/
def ParseResult.parseClass (r : ParseResult) : ParseClass :=
  match r.frame with
  | none => .incomplete
  | some f => if r.code = .noError then .ok f else .rejected r.code

/-- The offset a host issues its next PARSE from, after one from offset `c` (R187, R188, R189): the same offset after
Incomplete, else `bytes_read` further on. -/
def ParseResult.nextOffset (c : Nat) (r : ParseResult) : Nat :=
  match r.parseClass with
  | .incomplete => c
  | .rejected _ => c + r.bytesRead
  | .ok _ => c + r.bytesRead

end Sys2Proof.Machine
end

