-- ==== Sys2Proof/Machine/Ops.lean ====
section
/-! DEFINITION. The operations every meaning is written with: the bytes of `Out` (20_memory.md R42, R50), the completion
of a command (R52), the checks that refuse one (60_exceptions.md R164), and the reset that abandons one
(70_reset_and_hazards.md R181). MBCODEC takes no exception (R160, R167): where another machine would trap, a command
completes with a result, by `State.complete`. -/

namespace Sys2Proof.Machine

/-- The byte at offset `a`, if it is known. -/
def Memory.read (m : Memory) (a : Nat) : Option Byte :=
  match m with
  | [] => Memory.unlisted
  | c :: rest => if c.1 = a then some c.2 else Memory.read rest a

/-- `v` written at offset `a`, in the canonical form. -/
def Memory.write (m : Memory) (a : Nat) (v : Byte) : Memory :=
  match m with
  | [] => [(a, v)]
  | c :: rest =>
    if a < c.1 then (a, v) :: c :: rest
    else if a = c.1 then (a, v) :: rest
    else c :: Memory.write rest a v

/-- `MemWrite(a, n, v)` (R6): the bytes in order, from offset `a` up. -/
def Memory.writeBytes (m : Memory) (a : Nat) (bs : List Byte) : Memory :=
  match bs with
  | [] => m
  | b :: rest => Memory.writeBytes (Memory.write m a b) (a + 1) rest

/-- The bytes that draw number `draw` leaves at the offsets from `a` on, `n` of them: free values (R151, R152). -/
def freeBytes (draw a n : Nat) : List Byte := (List.range n).map (fun i => Config.freeByte draw (a + i))

/-- The byte of `Out` at offset `a`: none where the offset does not exist (R42) or nothing says what it holds. -/
def State.outByte (s : State) (a : Nat) : Option Byte :=
  if a < s.params.outCap then s.out.read a else none

/-- `Out[from .. OUT_CAP) <- unspecified` (R140): a fresh draw for each byte. -/
def State.unspecifyOut (s : State) (lo : Nat) : State :=
  { s with
    out := s.out.writeBytes lo (freeBytes s.draws lo (s.params.outCap - lo))
    draws := s.draws + 1 }

/-- A command ends: its results stand on the result port, all at once (R52), and its working state is discarded (R39). -/
def State.complete (s : State) (r : Result) : State :=
  { s with result := some r, work := WorkingState.start }

/-- A reset during a command: "The host gets no result for it, and every byte of `Out` is unspecified afterwards"
(R181). -/
def State.abandon (s : State) : State :=
  { s.unspecifyOut 0 with result := none, work := WorkingState.start }

/-- A reset of the idle block: there is nothing to initialise but the working state (R39, R180), and nothing is
delivered (log 9). -/
def State.resetIdle (s : State) : State :=
  { s with result := none, work := WorkingState.start }

/-- The command of a span operand runs only if the span is within `IN_CAP` (R5, R164). -/
def guardInput (input : List Byte) (s : State) (r : StepOutcome) : StepOutcome :=
  if withinCap s.params.inCap input.length then r else .refused (.operandTooLong input.length)

/-- The command of a value sequence of length `n` runs only if it is within `BITS_CAP` (R5, R164). -/
def guardValues (n : Nat) (s : State) (r : StepOutcome) : StepOutcome :=
  if withinCap s.params.bitsCap n then r else .refused (.operandTooLong n)

end Sys2Proof.Machine
end

