-- ==== Sys2Proof/Machine/BitPack.lean ====
section
/-! DEFINITION. The bit packer and unpacker (40_bitpack.md R90 to R93). -/

namespace Sys2Proof.Machine

/-- Byte `k` of `PACK(bits)` (R90): bit `j` is set where element `8k + j` exists and is true. -/
def packByte (bits : List Bool) (k : Nat) : Byte :=
  (List.range 8).foldl
    (fun acc j => if bits.getD (8 * k + j) false then acc ||| (1#8 <<< j) else acc) 0#8

/-- `PACK(bits)` (R90). -/
def packBits (bits : List Bool) : List Byte := (List.range (ceil8 bits.length)).map (packByte bits)

/-- The eight bits of a byte, the least significant first (R46). -/
def byteBits (b : Byte) : List Bool := (List.range 8).map (fun j => b.getLsbD j)

/-- `UNPACK(In)` (R91). -/
def unpackBytes (input : List Byte) : List Bool := input.flatMap byteBits

/-- `UNPACK_MAX(In, max_count)` (R92): `take(max_count, UNPACK(In))`. -/
def unpackBytesMax (input : List Byte) (maxCount : Word) : List Bool :=
  (unpackBytes input).take maxCount.toNat

/-- `pad(s)` (R93): `s` followed by `false` up to a multiple of eight. -/
def padBits (s : List Bool) : List Bool := s ++ List.replicate (ceil8 s.length * 8 - s.length) false

/-- PACK (R90). -/
def execPack (bits : List Bool) (s : State) : StepOutcome :=
  guardValues bits.length s (.next (s.complete (.bytes (packBits bits))))

/-- UNPACK (R91). -/
def execUnpack (input : List Byte) (s : State) : StepOutcome :=
  guardInput input s (.next (s.complete (.bits (unpackBytes input))))

/-- UNPACK_MAX (R92). -/
def execUnpackMax (input : List Byte) (maxCount : Word) (s : State) : StepOutcome :=
  guardInput input s (.next (s.complete (.bits (unpackBytesMax input maxCount))))

end Sys2Proof.Machine
end

