-- ==== Sys2Proof/Machine/Crc.lean ====
section
/-! DEFINITION. The CRC-16 generator (41_crc16.md R100 to R103). -/

namespace Sys2Proof.Machine

/-- The seed (R5, R26). -/
def crcSeed : Word := 0xFFFF

/-- The reflected polynomial (R5, R101). -/
def crcPoly : Word := 0xA001

/-- One of the eight rounds of `crc_update` (R101). -/
def crcRound (c : Word) : Word :=
  if c.getLsbD 0 then (c >>> 1) ^^^ crcPoly else c >>> 1

/-- `crc_update(c, b)` (R101). -/
def crcUpdate (c : Word) (b : Byte) : Word := Nat.repeat crcRound 8 (c ^^^ b.setWidth 16)

/-- The accumulator after the bytes of `d`, from the accumulator `c`. -/
def crcFold (c : Word) (d : List Byte) : Word := d.foldl crcUpdate c

/-- `c_final`: the accumulator after all of `d` (R102). -/
def crcFinal (d : List Byte) : Word := crcFold crcSeed d

/-- `compute(d)` (R100, R102): the final accumulator with its bytes swapped. -/
def compute (d : List Byte) : Word := swap16 (crcFinal d)

/-- CRC16 (R100). -/
def execCrc16 (input : List Byte) (s : State) : StepOutcome :=
  guardInput input s (.next (s.complete (.crc (compute input))))

end Sys2Proof.Machine
end

