-- ==== Sys2Proof/Machine/Parse.lean ====
section
/-! DEFINITION. The frame parser (42_parse.md R110 to R126): the pseudocode of rule R110, one sub-parser for each family,
and the meaning of PARSE and of each row of its dispatch (30_encoding.md R75). A sub-parser answers `.error r` where rule
R110 returns `r` at once, and `.ok (payload, p)` where it goes on to step S4 with the payload end `p`. -/

namespace Sys2Proof.Machine

/-- `MIN_FRAME` (R5, R61). -/
def minFrame : Nat := 4

/-- "not enough bytes yet" (R111, R122, R124). -/
def needMoreBytes : ParseResult := { code := .slaveDeviceFailure, frame := none, bytesRead := 0 }

/-- A reject with the span's own header and no payload (R116, R121, R125). -/
def rejectWith (input : List Byte) (code : ExceptionCode) (n : Nat) : ParseResult :=
  { code := code, frame := some { header := headerOf input, payload := none }, bytesRead := n }

/-- A sub-parser of step S2. -/
abbrev SubParser := List Byte → Except ParseResult (Payload × Nat)

/-- Read family (R114): `mk` is the request variant of the function code. -/
def subRead (mk : Word → Word → Payload) : SubParser := fun input =>
  if input.length < 6 then .error needMoreBytes
  else .ok (mk (wordAt input 2) (wordAt input 4), 6)

/-- WriteSingleCoil (R115, R116, R123). -/
def subWriteCoil : SubParser := fun input =>
  if input.length < 6 then .error needMoreBytes
  else if wordAt input 4 = 0xFF00 then .ok (.writeCoilRequest (wordAt input 2) true, 6)
  else if wordAt input 4 = 0x0000 then .ok (.writeCoilRequest (wordAt input 2) false, 6)
  else .error (rejectWith input .illegalDataValue 2)

/-- WriteSingleHoldingRegister (R115). -/
def subWriteRegister : SubParser := fun input =>
  if input.length < 6 then .error needMoreBytes
  else .ok (.writeRegisterRequest (wordAt input 2) (wordAt input 4), 6)

/-- Write-multiple family (R117, R118): `mk` makes the payload of the starting address, the count and the data. -/
def subWriteMultiple (mk : Word → Word → List Byte → Payload) : SubParser := fun input =>
  if input.length < 7 then .error needMoreBytes
  else
    let bc := (byteAt input 6).toNat
    if 7 + bc > input.length then .error { code := .illegalDataValue, frame := none, bytesRead := 0 }
    else .ok (mk (wordAt input 2) (wordAt input 4) (memRead input 7 bc), 7 + bc)

/-- WriteMultipleCoils' payload (R73, R119). -/
def coilsPayload (startingAddress count : Word) (data : List Byte) : Payload :=
  .writeCoilsRequest startingAddress (unpackBytesMax data count)

/-- WriteMultipleHoldingRegisters' payload (R74, R120): the count takes no part in it. -/
def registersPayload (startingAddress _count : Word) (data : List Byte) : Payload :=
  .writeRegistersRequest startingAddress (wordsOf data)

/-- An unknown function code (R121, R123). -/
def subIllegalFunction : SubParser := fun input => .error (rejectWith input .illegalFunction 1)

/-- Step S4 (R124, R125, R126): the CRC of the span up to the payload end `p`. -/
def checkCrc (input : List Byte) (payload : Payload) (p : Nat) : ParseResult :=
  if input.length < p + 2 then needMoreBytes
  else if wordAt input p ≠ compute (memRead input 0 p) then rejectWith input .memoryParityError (p + 2)
  else { code := .noError, frame := some { header := headerOf input, payload := some payload }, bytesRead := p + 2 }

/-- Steps S1 to S4 around a sub-parser (R110, R111, R166). -/
def parseWith (sub : SubParser) (input : List Byte) : ParseResult :=
  if input.length < minFrame then needMoreBytes
  else
    match sub input with
    | .error r => r
    | .ok (payload, p) => checkCrc input payload p

/-- The dispatch of step S2 (R75, R113). -/
def subParserOf (fc : Byte) : SubParser :=
  match FunctionCode.ofByte? fc with
  | some .readCoils => subRead .readCoilsRequest
  | some .readDiscreteInputs => subRead .readDiscreteInputsRequest
  | some .readHoldingRegisters => subRead .readRegistersRequest
  | some .readInputRegisters => subRead .readInputsRequest
  | some .writeSingleCoil => subWriteCoil
  | some .writeSingleHoldingRegister => subWriteRegister
  | some .writeMultipleCoils => subWriteMultiple coilsPayload
  | some .writeMultipleHoldingRegisters => subWriteMultiple registersPayload
  | none => subIllegalFunction

/-- `try_parse_frame(In)` (R110). -/
def parseFrame (input : List Byte) : ParseResult := parseWith (subParserOf (byteAt input 1)) input

/-- PARSE of a span completes with a result (R110, R52), if the span is within `IN_CAP`. -/
def completeParse (input : List Byte) (r : ParseResult) (s : State) : StepOutcome :=
  guardInput input s (.next (s.complete (.parsed r)))

/-- PARSE (R110). -/
def execParse (input : List Byte) (s : State) : StepOutcome :=
  completeParse input (parseFrame input) s

/-- PARSE of a span with function code 0x01 (R114). -/
def execParseReadCoils (slave : Byte) (rest : List Byte) (s : State) : StepOutcome :=
  let input := slave :: 0x01 :: rest
  completeParse input (parseWith (subRead .readCoilsRequest) input) s

/-- PARSE of a span with function code 0x02 (R114). -/
def execParseReadDiscreteInputs (slave : Byte) (rest : List Byte) (s : State) : StepOutcome :=
  let input := slave :: 0x02 :: rest
  completeParse input (parseWith (subRead .readDiscreteInputsRequest) input) s

/-- PARSE of a span with function code 0x03 (R114). -/
def execParseReadHoldingRegisters (slave : Byte) (rest : List Byte) (s : State) : StepOutcome :=
  let input := slave :: 0x03 :: rest
  completeParse input (parseWith (subRead .readRegistersRequest) input) s

/-- PARSE of a span with function code 0x04 (R114). -/
def execParseReadInputRegisters (slave : Byte) (rest : List Byte) (s : State) : StepOutcome :=
  let input := slave :: 0x04 :: rest
  completeParse input (parseWith (subRead .readInputsRequest) input) s

/-- PARSE of a span with function code 0x05 (R115, R116). -/
def execParseWriteSingleCoil (slave : Byte) (rest : List Byte) (s : State) : StepOutcome :=
  let input := slave :: 0x05 :: rest
  completeParse input (parseWith subWriteCoil input) s

/-- PARSE of a span with function code 0x06 (R115). -/
def execParseWriteSingleHoldingRegister (slave : Byte) (rest : List Byte) (s : State) : StepOutcome :=
  let input := slave :: 0x06 :: rest
  completeParse input (parseWith subWriteRegister input) s

/-- PARSE of a span with function code 0x0F (R117 to R119). -/
def execParseWriteMultipleCoils (slave : Byte) (rest : List Byte) (s : State) : StepOutcome :=
  let input := slave :: 0x0F :: rest
  completeParse input (parseWith (subWriteMultiple coilsPayload) input) s

/-- PARSE of a span with function code 0x10 (R117, R118, R120). -/
def execParseWriteMultipleHoldingRegisters (slave : Byte) (rest : List Byte) (s : State) : StepOutcome :=
  let input := slave :: 0x10 :: rest
  completeParse input (parseWith (subWriteMultiple registersPayload) input) s

/-- PARSE of a span whose function code is none of the eight (R121). -/
def execParseIllegalFunction (slave fc : Byte) (rest : List Byte) (s : State) : StepOutcome :=
  let input := slave :: fc :: rest
  completeParse input (parseWith subIllegalFunction input) s

end Sys2Proof.Machine
end

