-- ==== Sys2Proof/Machine/Serialize.lean ====
section
/-! DEFINITION. The frame renderer (43_serialize.md R140 to R152): the body of each layout, the image with its CRC, success
and failure, and the meaning of SERIALIZE, of each row of its dispatch (30_encoding.md R76) and of EXCRESP (R87). A body
is `none` where rule R140 says `goto FAIL`. -/

namespace Sys2Proof.Machine

/-- The body of F-EXC (R65, R142). -/
def errorBody (code : Byte) : Option (List Byte) := some [code]

/-- The body of F-RBITS: the byte count, then the packed values (R66, R143); none above 255 bytes (R150). -/
def bitsBody (values : List Bool) : Option (List Byte) :=
  let pk := packBits values
  if pk.length > 255 then none else some (BitVec.ofNat 8 pk.length :: pk)

/-- The body of F-RREGS: the byte count, then the values (R67, R144); none above 255 bytes (R150). -/
def registersBody (values : List Word) : Option (List Byte) :=
  if 2 * values.length > 255 then none
  else some (BitVec.ofNat 8 (2 * values.length) :: values.flatMap wordBytes)

/-- The body of F-WRESP: two words (R68, R145, R146). -/
def pairBody (a v : Word) : Option (List Byte) := some (wordBytes a ++ wordBytes v)

/-- The image of a frame: header as given, body, CRC over both (R60, R141, R148). -/
def imageOf (h : CommandHeader) (body : List Byte) : List Byte :=
  let bytes := h.slaveAddress :: h.command :: body
  bytes ++ wordBytes (compute bytes)

/-- Failure: `(false, 0)`, every byte of `Out` unspecified (R151). -/
def State.serializeFail (s : State) : State :=
  (s.unspecifyOut 0).complete (.serialized false 0)

/-- Success: `(true, N)`, the image in `Out[0 .. N)`, the rest of `Out` unspecified (R152). -/
def State.serializeOk (s : State) (image : List Byte) : State :=
  ({ s with out := s.out.writeBytes 0 image }.unspecifyOut image.length).complete (.serialized true image.length)

/-- The end of SERIALIZE, from the body on: failure without a body (R147, R150) or without room for the image (R149),
else success. `n` is the length of the frame's value sequence (R5). -/
def finishSerialize (h : CommandHeader) (body : Option (List Byte)) (n : Nat) (s : State) : StepOutcome :=
  guardValues n s
    (match body with
     | none => .next s.serializeFail
     | some bs =>
       if (imageOf h bs).length > s.params.outCap then .next s.serializeFail
       else .next (s.serializeOk (imageOf h bs)))

/-- SERIALIZE of an ErrorPayload: refused unless its byte is an ExceptionCode (R82, R142). -/
def serializeError (h : CommandHeader) (code : Byte) (s : State) : StepOutcome :=
  match ExceptionCode.ofByte? code with
  | none => .refused (.notAnExceptionCode code)
  | some _ => finishSerialize h (errorBody code) 0 s

/-- SERIALIZE of a read-coils or read-discrete-inputs response (R143). -/
def serializeBits (h : CommandHeader) (values : List Bool) (s : State) : StepOutcome :=
  finishSerialize h (bitsBody values) values.length s

/-- SERIALIZE of a read-holding-registers or read-input-registers response (R144). -/
def serializeRegisters (h : CommandHeader) (values : List Word) (s : State) : StepOutcome :=
  finishSerialize h (registersBody values) values.length s

/-- SERIALIZE of a write response (R145, R146). -/
def serializePair (h : CommandHeader) (a v : Word) (s : State) : StepOutcome :=
  finishSerialize h (pairBody a v) 0 s

/-- SERIALIZE of a shape without a rendering (R147). -/
def serializeNothing (f : Frame) (s : State) : StepOutcome :=
  finishSerialize f.header none (frameValueCount f) s

/-- `try_serialize_frame(f, Out)` (R140): the dispatch on the payload variant (R76). -/
def serializeFrame (f : Frame) (s : State) : StepOutcome :=
  match f.payload with
  | some (.errorPayload c) => serializeError f.header c s
  | some (.readCoilsResponse vs) => serializeBits f.header vs s
  | some (.readDiscreteInputsResponse vs) => serializeBits f.header vs s
  | some (.readRegistersResponse vs) => serializeRegisters f.header vs s
  | some (.readInputsResponse vs) => serializeRegisters f.header vs s
  | some (.writeCoilResponse a v) => serializePair f.header a (coilWord v) s
  | some (.writeRegisterResponse a v) => serializePair f.header a v s
  | some (.writeCoilsResponse a n) => serializePair f.header a n s
  | some (.writeRegistersResponse a n) => serializePair f.header a n s
  | none
  | some (.readCoilsRequest _ _)
  | some (.readDiscreteInputsRequest _ _)
  | some (.readRegistersRequest _ _)
  | some (.readInputsRequest _ _)
  | some (.writeCoilRequest _ _)
  | some (.writeRegisterRequest _ _)
  | some (.writeCoilsRequest _ _)
  | some (.writeRegistersRequest _ _) => serializeNothing f s

/-- SERIALIZE (R140). -/
def execSerialize (frame : Frame) (s : State) : StepOutcome := serializeFrame frame s

/-- EXCRESP (R87): SERIALIZE of `{addr, fc OR 0x80 | ErrorPayload{error_code: code}}`. -/
def execExcresp (addr fc code : Byte) (s : State) : StepOutcome := serializeFrame (excrespFrame addr fc code) s

/-- SERIALIZE of an ErrorPayload (R142). -/
def execSerializeErrorPayload (h : CommandHeader) (code : Byte) (s : State) : StepOutcome :=
  serializeError h code s

/-- SERIALIZE of a ReadCoilsResponse (R143). -/
def execSerializeReadCoilsResponse (h : CommandHeader) (values : List Bool) (s : State) : StepOutcome :=
  serializeBits h values s

/-- SERIALIZE of a ReadDiscreteInputsResponse (R143). -/
def execSerializeReadDiscreteInputsResponse (h : CommandHeader) (values : List Bool) (s : State) : StepOutcome :=
  serializeBits h values s

/-- SERIALIZE of a ReadRegistersResponse (R144). -/
def execSerializeReadRegistersResponse (h : CommandHeader) (values : List Word) (s : State) : StepOutcome :=
  serializeRegisters h values s

/-- SERIALIZE of a ReadInputsResponse (R144). -/
def execSerializeReadInputsResponse (h : CommandHeader) (values : List Word) (s : State) : StepOutcome :=
  serializeRegisters h values s

/-- SERIALIZE of a WriteCoilResponse (R145). -/
def execSerializeWriteCoilResponse (h : CommandHeader) (address : Word) (value : Bool) (s : State) : StepOutcome :=
  serializePair h address (coilWord value) s

/-- SERIALIZE of a WriteRegisterResponse (R145). -/
def execSerializeWriteRegisterResponse (h : CommandHeader) (address value : Word) (s : State) : StepOutcome :=
  serializePair h address value s

/-- SERIALIZE of a WriteCoilsResponse (R146). -/
def execSerializeWriteCoilsResponse (h : CommandHeader) (startingAddress count : Word) (s : State) : StepOutcome :=
  serializePair h startingAddress count s

/-- SERIALIZE of a WriteRegistersResponse (R146). -/
def execSerializeWriteRegistersResponse (h : CommandHeader) (startingAddress count : Word) (s : State) : StepOutcome :=
  serializePair h startingAddress count s

/-- SERIALIZE of a header-only frame or a request variant (R147). -/
def execSerializeUnrenderable (frame : Frame) (s : State) : StepOutcome := serializeNothing frame s

end Sys2Proof.Machine
end

