-- ==== Sys2Proof/Machine/Dispatch.lean ====
section
/-! DEFINITION. What an instruction does: one arm for each constructor of Instr. -/

namespace Sys2Proof.Machine

def exec (i : Instr) (s : State) : Host.Outcome State Fault Refusal :=
  match i with
  | .crc16 input => Sys2Proof.Machine.execCrc16 input s
  | .pack bits => Sys2Proof.Machine.execPack bits s
  | .unpack input => Sys2Proof.Machine.execUnpack input s
  | .unpackMax input maxCount => Sys2Proof.Machine.execUnpackMax input maxCount s
  | .parse input => Sys2Proof.Machine.execParse input s
  | .serialize frame => Sys2Proof.Machine.execSerialize frame s
  | .excresp addr fc code => Sys2Proof.Machine.execExcresp addr fc code s
  | .parseReadCoils slave rest => Sys2Proof.Machine.execParseReadCoils slave rest s
  | .parseReadDiscreteInputs slave rest => Sys2Proof.Machine.execParseReadDiscreteInputs slave rest s
  | .parseReadHoldingRegisters slave rest => Sys2Proof.Machine.execParseReadHoldingRegisters slave rest s
  | .parseReadInputRegisters slave rest => Sys2Proof.Machine.execParseReadInputRegisters slave rest s
  | .parseWriteSingleCoil slave rest => Sys2Proof.Machine.execParseWriteSingleCoil slave rest s
  | .parseWriteSingleHoldingRegister slave rest => Sys2Proof.Machine.execParseWriteSingleHoldingRegister slave rest s
  | .parseWriteMultipleCoils slave rest => Sys2Proof.Machine.execParseWriteMultipleCoils slave rest s
  | .parseWriteMultipleHoldingRegisters slave rest => Sys2Proof.Machine.execParseWriteMultipleHoldingRegisters slave rest s
  | .parseIllegalFunction slave fc rest => Sys2Proof.Machine.execParseIllegalFunction slave fc rest s
  | .serializeErrorPayload h code => Sys2Proof.Machine.execSerializeErrorPayload h code s
  | .serializeReadCoilsResponse h vs => Sys2Proof.Machine.execSerializeReadCoilsResponse h vs s
  | .serializeReadDiscreteInputsResponse h vs => Sys2Proof.Machine.execSerializeReadDiscreteInputsResponse h vs s
  | .serializeReadRegistersResponse h vs => Sys2Proof.Machine.execSerializeReadRegistersResponse h vs s
  | .serializeReadInputsResponse h vs => Sys2Proof.Machine.execSerializeReadInputsResponse h vs s
  | .serializeWriteCoilResponse h a v => Sys2Proof.Machine.execSerializeWriteCoilResponse h a v s
  | .serializeWriteRegisterResponse h a v => Sys2Proof.Machine.execSerializeWriteRegisterResponse h a v s
  | .serializeWriteCoilsResponse h a n => Sys2Proof.Machine.execSerializeWriteCoilsResponse h a n s
  | .serializeWriteRegistersResponse h a n => Sys2Proof.Machine.execSerializeWriteRegistersResponse h a n s
  | .serializeUnrenderable frame => Sys2Proof.Machine.execSerializeUnrenderable frame s

end Sys2Proof.Machine
end

