-- ==== Sys2Proof/Machine/HostEvents.lean ====
section
/-! DEFINITION. What the block does with one interaction of the host (70_reset_and_hazards.md R180, R181, R184, R185, R191;
20_memory.md R53). -/

namespace Sys2Proof.Machine

/-- The refusal that a word rejected by the decoder gets (R83, R164). -/
def refusalOf : DecodeError → Refusal
  | .illegalOpcode opcode => .illegalOpcode opcode
  | .illegalPayloadTag tag => .illegalPayloadTag tag
  | .noFunctionCode => .noFunctionCode

/-- An accepted instruction, and what the host does until it completes: it runs (R52); the other command is refused
(R184); a reset abandons it (R181); or the run has no step (R53, R185). -/
def runDuring (i : Instr) (during : During) (s : State) : StepOutcome :=
  match during with
  | .quiet => exec i s
  | .anotherCommand => .refused .commandInProgress
  | .reset => .next s.abandon
  | .bufferAccess a => .fault (.bufferAccessDuringCommand a)

/-- One interaction of the host, on a state from whose queue it has been taken. -/
def hostEvent (e : HostEvent) (s : State) : StepOutcome :=
  match e with
  | .issue w during =>
    match decode w with
    | .ok i => runDuring i during s
    | .error err => .refused (refusalOf err)
  | .reset => .next s.resetIdle
  | .writeOut offset value =>
    if offset < s.params.outCap then .next { s with out := s.out.write offset value }
    else .fault (.noSuchOutOffset offset)

end Sys2Proof.Machine
end

