-- ==== Sys2Proof/Machine/Step.lean ====
section
/-! DEFINITION. One step: the next interaction of the host (10_state.md R22; 70_reset_and_hazards.md R184, R192: "each
command is one step"). -/

namespace Sys2Proof.Machine

/-- The host's next interaction is taken from the queue and done; with none pending the block waits (R180, log 10). -/
def step (s : State) : Host.Outcome State Fault Refusal :=
  match s.host with
  | [] => .next s
  | e :: rest => hostEvent e { s with host := rest }

/-- The state in which the host's next interaction is to issue the instruction of a word numbered as
spec/opcode_table.json numbers it, and to wait for its completion (log 8). -/
def State.withFetchWord (s : State) (nbits w : Nat) : State :=
  { s with host := .issue (tableWord nbits w) .quiet :: s.host }

end Sys2Proof.Machine
end

