-- ==== Sys2Proof/Machine/Stream.lean ====
section
/-! DEFINITION. The inside of a command, element by element over the working state (10_state.md R26 to R28, R39): the CRC
a byte at a time, the packer and unpacker a bit at a time (40_bitpack.md R94), the parser as a reader that moves an
offset, the renderer as a writer that stops where the buffer ends (43_serialize.md R149). No host can see these steps
(20_memory.md R52): the meanings say the whole results, and the obligations say that both agree. -/

namespace Sys2Proof.Machine

/-- One byte through the CRC accumulator (R26, R101). -/
def crcByte (w : WorkingState) (b : Byte) : WorkingState := { w with crc := crcUpdate w.crc b }

/-- One bit into PACK's accumulator, and the byte that is full with it, if one is (R27). -/
def packBit (w : WorkingState) (b : Bool) : WorkingState × List Byte :=
  let acc := if b then w.packAcc ||| (1#8 <<< w.bitPos.val) else w.packAcc
  if w.bitPos = 7 then ({ w with packAcc := 0, bitPos := 0 }, [acc])
  else ({ w with packAcc := acc, bitPos := w.bitPos + 1 }, [])

/-- The final partial byte, zero-padded, if there is one (R27, R90). -/
def packFlush (w : WorkingState) : List Byte := if w.bitPos = 0 then [] else [w.packAcc]

/-- PACK, streaming (R94). -/
def packStream (w : WorkingState) : List Bool → List Byte
  | [] => packFlush w
  | b :: bs => (packBit w b).2 ++ packStream (packBit w b).1 bs

/-- The next element of UNPACK, if there is one (R27, R91). -/
def unpackBit (input : List Byte) (w : WorkingState) : Option (Bool × WorkingState) :=
  if w.byteIndex < input.length then
    some ((byteAt input w.byteIndex).getLsbD w.bitPos.val,
      if w.bitPos = 7 then { w with byteIndex := w.byteIndex + 1, bitPos := 0 }
      else { w with bitPos := w.bitPos + 1 })
  else none

/-- The first `n` elements of UNPACK, streaming (R94). -/
def unpackStream (input : List Byte) (n : Nat) (w : WorkingState) : List Bool :=
  match n with
  | 0 => []
  | n + 1 =>
    match unpackBit input w with
    | none => []
    | some (b, w') => b :: unpackStream input n w'

/-- The next byte of `In` (R28), if it is there. -/
def nextByte (input : List Byte) (w : WorkingState) : Option (Byte × WorkingState) :=
  if w.parseOffset < input.length then
    some (byteAt input w.parseOffset, { w with parseOffset := w.parseOffset + 1 })
  else none

/-- The next byte of the header or the payload, which also goes through the CRC accumulator (R26, R103). -/
def readByte (input : List Byte) (w : WorkingState) : Option (Byte × WorkingState) := do
  let (b, w) ← nextByte input w
  return (b, crcByte w b)

/-- The CRC field, which the CRC does not cover (R103, R125). -/
def readCrc (input : List Byte) (w : WorkingState) : Option (Word × WorkingState) := do
  let (h, w) ← nextByte input w
  let (l, w) ← nextByte input w
  return (be16 h l, w)

/-- The next big-endian word of the payload (R44). -/
def readWord (input : List Byte) (w : WorkingState) : Option (Word × WorkingState) := do
  let (h, w) ← readByte input w
  let (l, w) ← readByte input w
  return (be16 h l, w)

/-- The next `n` bytes of the payload. -/
def readBytes (input : List Byte) (n : Nat) (w : WorkingState) : Option (List Byte × WorkingState) :=
  match n with
  | 0 => some ([], w)
  | n + 1 => do
    let (b, w) ← readByte input w
    let (bs, w) ← readBytes input n w
    return (b :: bs, w)

/-- The sub-parsers as readers, after the header: an immediate result, or the payload, with `p` in the working state. -/
def readPayload (input : List Byte) (fc : Byte) (w : WorkingState) : Except ParseResult (Payload × WorkingState) :=
  let two : Except ParseResult (Word × Word × WorkingState) :=
    match (do
      let (a, w) ← readWord input w
      let (v, w) ← readWord input w
      return (a, v, { w with payloadEnd := w.parseOffset }) : Option (Word × Word × WorkingState)) with
    | none => .error needMoreBytes
    | some r => .ok r
  let many (mk : Word → Word → List Byte → Payload) : Except ParseResult (Payload × WorkingState) := do
    let (a, n, w) ← two
    match readByte input w with
    | none => .error needMoreBytes
    | some (bc, w) =>
      match readBytes input bc.toNat w with
      | none => .error { code := .illegalDataValue, frame := none, bytesRead := 0 }
      | some (data, w) => .ok (mk a n data, { w with payloadEnd := w.parseOffset })
  let read (mk : Word → Word → Payload) : Except ParseResult (Payload × WorkingState) := do
    let (a, n, w) ← two
    return (mk a n, w)
  match FunctionCode.ofByte? fc with
  | some .readCoils => read .readCoilsRequest
  | some .readDiscreteInputs => read .readDiscreteInputsRequest
  | some .readHoldingRegisters => read .readRegistersRequest
  | some .readInputRegisters => read .readInputsRequest
  | some .writeSingleCoil => do
    let (a, v, w) ← two
    if v = 0xFF00 then .ok (.writeCoilRequest a true, w)
    else if v = 0x0000 then .ok (.writeCoilRequest a false, w)
    else .error (rejectWith input .illegalDataValue 2)
  | some .writeSingleHoldingRegister => read .writeRegisterRequest
  | some .writeMultipleCoils => many coilsPayload
  | some .writeMultipleHoldingRegisters => many registersPayload
  | none => .error (rejectWith input .illegalFunction 1)

/-- PARSE as a reader: header and payload through the CRC accumulator, then the CRC field against the accumulator with its
bytes swapped (R102); what it consumes is where its offset stands (R26, R28, R110). -/
def parseStream (input : List Byte) (w : WorkingState) : ParseResult :=
  if input.length < minFrame then needMoreBytes
  else
    match (do
      let (slave, w) ← readByte input w
      let (fc, w) ← readByte input w
      return (slave, fc, w) : Option (Byte × Byte × WorkingState)) with
    | none => needMoreBytes
    | some (slave, fc, w) =>
      match readPayload input fc w with
      | .error r => r
      | .ok (payload, w) =>
        match readCrc input w with
        | none => needMoreBytes
        | some (rx, w) =>
          let h : CommandHeader := { slaveAddress := slave, command := fc }
          if rx ≠ swap16 w.crc then
            { code := .memoryParityError, frame := some { header := h, payload := none }, bytesRead := w.parseOffset }
          else
            { code := .noError, frame := some { header := h, payload := some payload }, bytesRead := w.parseOffset }

/-- One byte into `Out`, if there is room: the working state and what was written so far (R28). -/
def putByte (cap : Nat) (st : WorkingState × List Byte) (b : Byte) : Option (WorkingState × List Byte) :=
  if st.1.writeOffset < cap then some ({ st.1 with writeOffset := st.1.writeOffset + 1 }, st.2 ++ [b]) else none

/-- Bytes into `Out`, in order. -/
def putBytes (cap : Nat) (bs : List Byte) (st : WorkingState × List Byte) : Option (WorkingState × List Byte) :=
  bs.foldlM (putByte cap) st

/-- A count placeholder, the data, and then the count "backfilled" over the placeholder (R71, R143, R144, R150). -/
def putCounted (cap : Nat) (data : List Byte) (st : WorkingState × List Byte) : Option (WorkingState × List Byte) := do
  let (w, out) ← putByte cap ({ st.1 with countOffset := st.1.writeOffset }, st.2) 0
  let (w, out) ← putBytes cap data (w, out)
  let n := w.writeOffset - (w.countOffset + 1)
  if n > 255 then none else return (w, out.set w.countOffset (BitVec.ofNat 8 n))

/-- The body of a frame (R142 to R147). -/
def putBody (cap : Nat) (p : Option Payload) (st : WorkingState × List Byte) : Option (WorkingState × List Byte) :=
  match p with
  | some (.errorPayload c) => putByte cap st c
  | some (.readCoilsResponse vs) => putCounted cap (packBits vs) st
  | some (.readDiscreteInputsResponse vs) => putCounted cap (packBits vs) st
  | some (.readRegistersResponse vs) => putCounted cap (vs.flatMap wordBytes) st
  | some (.readInputsResponse vs) => putCounted cap (vs.flatMap wordBytes) st
  | some (.writeCoilResponse a v) => putBytes cap (wordBytes a ++ wordBytes (coilWord v)) st
  | some (.writeRegisterResponse a v) => putBytes cap (wordBytes a ++ wordBytes v) st
  | some (.writeCoilsResponse a n) => putBytes cap (wordBytes a ++ wordBytes n) st
  | some (.writeRegistersResponse a n) => putBytes cap (wordBytes a ++ wordBytes n) st
  | none
  | some (.readCoilsRequest _ _)
  | some (.readDiscreteInputsRequest _ _)
  | some (.readRegistersRequest _ _)
  | some (.readInputsRequest _ _)
  | some (.writeCoilRequest _ _)
  | some (.writeRegisterRequest _ _)
  | some (.writeCoilsRequest _ _)
  | some (.writeRegistersRequest _ _) => none

/-- SERIALIZE as a writer into a buffer of `cap` bytes: "Fails … if the destination buffer is too small at any step"
(R149). The CRC is taken last, from the seed, over everything written so far, the backfilled count included (R26, R148).
What it wrote, or `none` where it failed. -/
def renderStream (cap : Nat) (f : Frame) (w : WorkingState) : Option (List Byte) := do
  let st ← putBytes cap [f.header.slaveAddress, f.header.command] (w, [])
  let st ← putBody cap f.payload st
  let w := st.2.foldl crcByte { st.1 with crc := crcSeed }
  let st ← putBytes cap (wordBytes (swap16 w.crc)) (w, st.2)
  return st.2

end Sys2Proof.Machine
end

