-- ==== Sys2Proof/Safety.lean ====
section
/-! DEFINITION. What a safe run of MBCODEC is: a host that keeps its duties (70_reset_and_hazards.md R184, R185, R191) and
issues only commands the block has a meaning for (60_exceptions.md R164). The block has no fault of its own (R160). -/

namespace Sys2Proof.Machine

open Sys2Proof

/-- Whether a frame is one SERIALIZE has a result for: its value sequence within `BITS_CAP`, and an ErrorPayload's byte
an ExceptionCode (R82, R164). -/
def frameAccepted (p : Params) (f : Frame) : Bool :=
  withinCap p.bitsCap (frameValueCount f) &&
    match f.payload with
    | some (.errorPayload c) => (ExceptionCode.ofByte? c).isSome
    | _ => true

/-- Whether an instruction is one the block has a result for (R164), by the command it is a row of. -/
def accepted (p : Params) (i : Instr) : Bool :=
  match i.toCommand with
  | .crc16 input => withinCap p.inCap input.length
  | .pack bits => withinCap p.bitsCap bits.length
  | .unpack input => withinCap p.inCap input.length
  | .unpackMax input _ => withinCap p.inCap input.length
  | .parse input => withinCap p.inCap input.length
  | .serialize f => frameAccepted p f
  | _ => false

/-- Whether an interaction keeps the host's duties: the command has a meaning, and between its issue and its completion
the host waits, or resets the block (R184, R185); a byte it writes into `Out` exists (R42). -/
def HostEvent.dutiful (p : Params) (e : HostEvent) : Bool :=
  match e with
  | .issue w .quiet =>
    match decode w with
    | .ok i => accepted p i
    | .error _ => false
  | .issue w .reset =>
    match decode w with
    | .ok _ => true
    | .error _ => false
  | .issue _ .anotherCommand => false
  | .issue _ (.bufferAccess _) => false
  | .reset => true
  | .writeOut offset _ => offset < p.outCap

/-- Every interaction of the host that is still to come keeps its duties. -/
def State.dutiful (s : State) : Bool := s.host.all (HostEvent.dutiful s.params)

/-- What holds between two commands: `Out` is in its canonical form and lists only offsets that exist (R42), and the
working state stands at its start values (R39). -/
def State.inv (s : State) : Bool :=
  s.out.wf && s.out.all (fun c => c.1 < s.params.outCap) && s.work == WorkingState.start

end Sys2Proof.Machine
end

