-- ==== Sys2Proof/Certificates/Slice0/Obligations.lean ====
section
/-! DEFINITION. The statements for the provers, from the spec's numbered rules. -/

open Sys2Proof Sys2Proof.Machine

namespace Sys2Proof.Machine

/-- PARSE of the span `d` returns `r`: from every state whose `IN_CAP` admits the span the command completes, `r` stands on
the result port, the working state is fresh, and nothing else changes. -/
def ParsesTo (d : List Byte) (r : ParseResult) : Prop :=
  ∀ s : State, withinCap s.params.inCap d.length = true →
    exec (.parse d) s = .next { s with result := some (.parsed r), work := WorkingState.start }

/-- From `s`, `i` completes as a SERIALIZE that succeeds with the image `img` (R152): `(true, N)` on the result port, the
image at offsets 0 up in `Out`, a free value at every other offset of `Out`, and the rest of the state unchanged but for
the working state and the model's own counter of draws. -/
def Renders (i : Instr) (img : List Byte) (s : State) : Prop :=
  ∃ t, exec i s = .next t ∧ t.result = some (.serialized true img.length) ∧
    (∀ a, a < img.length → t.outByte a = img[a]?) ∧
    (∀ a, img.length ≤ a → a < s.params.outCap → t.outByte a = some (Config.freeByte s.draws a)) ∧
    t.params = s.params ∧ t.host = s.host ∧ t.work = WorkingState.start ∧ t.draws = s.draws + 1

/-- From `s`, `i` completes as a SERIALIZE that fails (R151): `(false, 0)` on the result port, a free value at every offset
of `Out`, and the rest of the state unchanged but for the working state and the model's own counter of draws. -/
def FailsToRender (i : Instr) (s : State) : Prop :=
  ∃ t, exec i s = .next t ∧ t.result = some (.serialized false 0) ∧
    (∀ a, a < s.params.outCap → t.outByte a = some (Config.freeByte s.draws a)) ∧
    t.params = s.params ∧ t.host = s.host ∧ t.work = WorkingState.start ∧ t.draws = s.draws + 1

/-- Step S4 on the span `d` with the header `h`, the payload `pl` and the payload end `p` (R124, R125, R126): without two
more bytes it waits for them, and with them the CRC decides. -/
def EndsByCrc (d : List Byte) (h : CommandHeader) (pl : Payload) (p : Nat) : Prop :=
  (d.length < p + 2 → ParsesTo d { code := .slaveDeviceFailure, frame := none, bytesRead := 0 }) ∧
  (p + 2 ≤ d.length → wordAt d p ≠ compute (d.take p) →
    ParsesTo d { code := .memoryParityError, frame := some { header := h, payload := none }, bytesRead := p + 2 }) ∧
  (p + 2 ≤ d.length → wordAt d p = compute (d.take p) →
    ParsesTo d { code := .noError, frame := some { header := h, payload := some pl }, bytesRead := p + 2 })

/-- Rule R127's bound `B` of the span `d`, with every `n` for which rule R110 tests `InLen < n` on the path of `d`: step S1,
an unknown function code, an early reject of WriteSingleCoil, and otherwise the tests up to the nominal length `p + 2`. -/
def parseBounds (d : List Byte) : Nat × List Nat :=
  let fc := byteAt d 1
  let bc := (byteAt d 6).toNat
  if d.length < 4 then (4, [4])
  else if fc ∉ ([0x01, 0x02, 0x03, 0x04, 0x05, 0x06, 0x0F, 0x10] : List Byte) then (2, [4])
  else if fc = 0x05 ∧ 6 ≤ d.length ∧ wordAt d 4 ≠ 0xFF00 ∧ wordAt d 4 ≠ 0x0000 then (6, [4, 6])
  else if fc = 0x0F ∨ fc = 0x10 then (9 + bc, [4, 7, 7 + bc, 9 + bc])
  else (8, [4, 6, 8])

/-- The image length of rule R153's table and the byte count of a read response (0 for the other layouts); none for a
shape without a rendering (R76, R147). -/
def frameSize (f : Frame) : Option (Nat × Nat) :=
  match f.payload with
  | some (.errorPayload _) => some (5, 0)
  | some (.readCoilsResponse vs) => some (5 + ceil8 vs.length, ceil8 vs.length)
  | some (.readDiscreteInputsResponse vs) => some (5 + ceil8 vs.length, ceil8 vs.length)
  | some (.readRegistersResponse vs) => some (5 + 2 * vs.length, 2 * vs.length)
  | some (.readInputsResponse vs) => some (5 + 2 * vs.length, 2 * vs.length)
  | some (.writeCoilResponse _ _) => some (8, 0)
  | some (.writeRegisterResponse _ _) => some (8, 0)
  | some (.writeCoilsResponse _ _) => some (8, 0)
  | some (.writeRegistersResponse _ _) => some (8, 0)
  | none
  | some (.readCoilsRequest _ _)
  | some (.readDiscreteInputsRequest _ _)
  | some (.readRegistersRequest _ _)
  | some (.readInputsRequest _ _)
  | some (.writeCoilRequest _ _)
  | some (.writeRegisterRequest _ _)
  | some (.writeCoilsRequest _ _)
  | some (.writeRegistersRequest _ _) => none

/-- A round of the CRC with the polynomial `x^16 + x^15 + x^2 + 1` (0x8005), the most significant bit first. -/
def msbRound (c : Word) : Word := if c.msb then (c <<< 1) ^^^ 0x8005 else c <<< 1

end Sys2Proof.Machine

/-! ## The machine as a whole -/

/-- R39, R180, R182: what reset leaves. R39 gives crc, the packer's accumulator, the bit position and the PARSE and
SERIALIZE offsets. The rest are the model's choices: the parameter values (log 1), the empty queue (log 2), the
unknown content of `Out` (log 3), the start values 0 of byteIndex, payloadEnd and countOffset (log 5) and the empty
result port (log 9). -/
def Obligations.ResetLeavesIdleFreshMachine : Prop :=
  State.reset.work.crc = 0xFFFF ∧ State.reset.work.packAcc = 0 ∧ State.reset.work.bitPos = 0 ∧
    State.reset.work.byteIndex = 0 ∧ State.reset.work.parseOffset = 0 ∧ State.reset.work.payloadEnd = 0 ∧
    State.reset.work.writeOffset = 0 ∧ State.reset.work.countOffset = 0 ∧
    State.reset.result = none ∧ State.reset.host = [] ∧ (∀ a, State.reset.outByte a = none) ∧
    State.reset.params.outCap = 256

/-- The invariant of the next statement holds after reset. -/
def Obligations.ResetMeetsInvariant : Prop := State.reset.inv = true ∧ State.reset.dutiful = true

/-- Every step keeps `Out` canonical, lists in it only offsets that exist (R42), and leaves the working state fresh (R39). -/
def Obligations.EveryStepKeepsInvariant : Prop :=
  ∀ s t : State, s.inv = true → step s = .next t → t.inv = true

/-- R5, R24, R192: a step takes one interaction of the host, and no step changes a parameter. The queue and the
parameters in State are the model's (logs 1, 2). -/
def Obligations.EveryStepTakesOneInteraction : Prop :=
  ∀ s t : State, step s = .next t → t.params = s.params ∧ t.host = s.host.tail

/-- R22, R78, R192: a step runs the instruction that the issued word decodes to, on the state without that word. The
words and their numbering are the model's (logs 6, 8). -/
def Obligations.StepRunsDecodedInstruction : Prop :=
  (∀ (s : State) (w : PortWord) (rest : List HostEvent) (i : Instr),
    s.host = .issue w .quiet :: rest → decode w = .ok i → step s = exec i { s with host := rest }) ∧
  (∀ (s : State) (nbits w : Nat) (i : Instr),
    decodeTableWord nbits w = some i → step (s.withFetchWord nbits w) = exec i s)

/-- R160, R164: a command the block has a meaning for completes from every state, every other is refused, and none
faults. Which commands are refused are the spec's decisions D2, D17 and D21. -/
def Obligations.AcceptedCommandsComplete : Prop :=
  ∀ (i : Instr) (s : State), i.wf = true →
    (accepted s.params i = true → ∃ t, exec i s = .next t) ∧
    (accepted s.params i = false → ∃ r, exec i s = .refused r) ∧
    (∀ f, exec i s ≠ .fault f)

/-- R160, R184, R185, R191: under a host that keeps its duties every step has a next state, whatever the bytes are,
and the host's remaining interactions still keep them. The queue of interactions is the model's (log 2). -/
def Obligations.DutifulHostNeverStops : Prop :=
  ∀ s : State, s.dutiful = true → ∃ t, step s = .next t ∧ t.dutiful = true

/-- R164: the four kinds of refused command. They are the spec's decisions D1, D2, D17 and D21. The model's choices
are that an illegal opcode is refused whatever the host does next, and that an overlapping command ends the run of
both (log 12), and the limit on a frame's values (log 15). -/
def Obligations.CommandsWithoutMeaningAreRefused : Prop :=
  (∀ (s : State) (opcode : Byte) (p : Ports) (during : During) (rest : List HostEvent),
    s.host = .issue (.command opcode p) during :: rest → (opcode.toNat = 0 ∨ 7 ≤ opcode.toNat) →
    step s = .refused (.illegalOpcode opcode)) ∧
  (∀ (s : State) (h : CommandHeader) (c addr fc : Byte), c = 0x09 ∨ 0x0C ≤ c.toNat →
    exec (.serialize { header := h, payload := some (.errorPayload c) }) s = .refused (.notAnExceptionCode c) ∧
    exec (.serializeErrorPayload h c) s = .refused (.notAnExceptionCode c) ∧
    exec (.excresp addr fc c) s = .refused (.notAnExceptionCode c)) ∧
  (∀ (s : State) (d : List Byte) (m : Word), withinCap s.params.inCap d.length = false →
    exec (.crc16 d) s = .refused (.operandTooLong d.length) ∧
    exec (.unpack d) s = .refused (.operandTooLong d.length) ∧
    exec (.unpackMax d m) s = .refused (.operandTooLong d.length) ∧
    exec (.parse d) s = .refused (.operandTooLong d.length)) ∧
  (∀ (s : State) (bits : List Bool), withinCap s.params.bitsCap bits.length = false →
    exec (.pack bits) s = .refused (.operandTooLong bits.length)) ∧
  (∀ (s : State) (f : Frame), withinCap s.params.bitsCap (frameValueCount f) = false →
    exec (.serialize f) s = .refused (.operandTooLong (frameValueCount f))) ∧
  (∀ (s : State) (w : PortWord) (i : Instr) (rest : List HostEvent),
    s.host = .issue w .anotherCommand :: rest → decode w = .ok i → step s = .refused .commandInProgress)

/-- R181: a reset during a command abandons it, delivers no result, and leaves every byte of `Out` a free value. The
spec's decision D23. The model's choices are that the reset also withdraws an earlier command's result (log 9), that
it comes before the checks of the operands (log 14), and the counter of draws (log 4). -/
def Obligations.ResetDuringCommandAbandonsIt : Prop :=
  ∀ (s : State) (w : PortWord) (i : Instr) (rest : List HostEvent),
    s.host = .issue w .reset :: rest → decode w = .ok i →
    ∃ t, step s = .next t ∧ t.result = none ∧ t.host = rest ∧ t.params = s.params ∧ t.work = WorkingState.start ∧
      t.draws = s.draws + 1 ∧ ∀ a, a < s.params.outCap → t.outByte a = some (Config.freeByte s.draws a)

/-- R53: a host that touches a buffer of the command in progress gets no step. The spec's decision D22; when the
interaction is seen is log 12. -/
def Obligations.BufferAccessDuringCommandHasNoStep : Prop :=
  ∀ (s : State) (w : PortWord) (i : Instr) (a : BufferAccess) (rest : List HostEvent),
    s.host = .issue w (.bufferAccess a) :: rest → decode w = .ok i → step s = .fault (.bufferAccessDuringCommand a)

/-- R42, R43, R180: the idle block with nothing pending waits; a reset of it only makes the working state fresh and
withdraws the delivered result; the host writes its own buffer, at the offsets that exist. The waiting, the withdrawn
result and the host's write are the model's choices (logs 9, 10, 11). -/
def Obligations.IdleBlockLeavesHostItsBuffer : Prop :=
  (∀ s : State, s.host = [] → step s = .next s) ∧
  (∀ (s : State) (rest : List HostEvent), s.host = .reset :: rest →
    step s = .next { s with host := rest, result := none, work := WorkingState.start }) ∧
  (∀ (s : State) (a : Nat) (v : Byte) (rest : List HostEvent), s.host = .writeOut a v :: rest →
    (a < s.params.outCap → ∃ t, step s = .next t ∧ t.result = s.result ∧ t.work = s.work ∧ t.draws = s.draws ∧
      ∀ b, t.outByte b = if b = a then some v else s.outByte b) ∧
    (s.params.outCap ≤ a → step s = .fault (.noSuchOutOffset a)))

/-- R20: a command's results depend only on its operands and the parameters: from two states with the same parameters,
whatever else they hold, the same instruction delivers the same result and the same image. -/
def Obligations.ResultsDependOnlyOnOperands : Prop :=
  ∀ (i : Instr) (s s' t : State), s.params = s'.params → exec i s = .next t →
    ∃ t', exec i s' = .next t' ∧ t'.result = t.result ∧ t'.work = t.work ∧ t'.params = t.params ∧
      ∀ n, t.result = some (.serialized true n) → ∀ a, a < n → t'.outByte a = t.outByte a

/-- R42: the frame of the commands other than SERIALIZE: they deliver a result and change nothing else. The spec's
decision D2. -/
def Obligations.OnlySerializeWritesOut : Prop :=
  ∀ (i : Instr) (s t : State), (∀ f, i.toCommand ≠ .serialize f) → exec i s = .next t →
    (∀ a, t.outByte a = s.outByte a) ∧ t.out = s.out ∧ t.params = s.params ∧ t.host = s.host ∧ t.draws = s.draws ∧
      t.work = WorkingState.start

/-! ## Words, instructions and rows -/

/-- Every well-formed instruction is what its word decodes to, with every operand. The formats of the words are the
model's choice (logs 6, 7). -/
def Obligations.DecodeEncodeRoundTrip : Prop := ∀ i : Instr, i.wf = true → decode (encode i) = .ok i

/-- R78: the six opcodes, on words with every operand. The spec's decision D2. -/
def Obligations.OpcodesSelectCommands : Prop :=
  ∀ p : Ports,
    decode (.command 0x01 p) = .ok (.crc16 p.input) ∧ decode (.command 0x02 p) = .ok (.pack p.bits) ∧
    decode (.command 0x03 p) = .ok (.unpack p.input) ∧
    decode (.command 0x04 p) = .ok (.unpackMax p.input p.maxCount) ∧
    decode (.command 0x05 p) = .ok (.parse p.input) ∧
    (∀ f, p.frame.toFrame? = some f → decode (.command 0x06 p) = .ok (.serialize f))

/-- R31, R32, R80, R82: the members of the two enumerations are the bytes the spec lists and no other. -/
def Obligations.EnumerationsHaveTheListedBytes : Prop :=
  (∀ b : Byte, (FunctionCode.ofByte? b).isSome = true ↔ b ∈ ([1, 2, 3, 4, 5, 6, 0x0F, 0x10] : List Byte)) ∧
  (∀ b : Byte, (ExceptionCode.ofByte? b).isSome = true ↔
    b ∈ ([0, 1, 2, 3, 4, 5, 6, 7, 8, 0x0A, 0x0B] : List Byte))

/-- R75, R76, R78, R87: a word decodes to a well-formed instruction, and the command that the word expands to decodes
to the command that the instruction is a row of. That each row has words of its own is the model's choice (log 6). -/
def Obligations.WordsExpandToTheirCommand : Prop :=
  ∀ (w : PortWord) (i : Instr), decode w = .ok i → i.wf = true ∧ decode w.expand = .ok i.toCommand

/-- R75, R76, R87: a row of a dispatch does exactly what its command does on the row's operands. That a row is an
instruction of its own is the model's choice (log 6). -/
def Obligations.RowsRunTheirCommand : Prop :=
  ∀ (i : Instr) (s : State), i.wf = true → exec i s = exec i.toCommand s

/-! ## CRC16 -/

/-- R100: CRC16 delivers `compute(In)` and changes nothing else. The limit is the spec's decision D21. -/
def Obligations.Crc16DeliversCompute : Prop :=
  ∀ (s : State) (d : List Byte), withinCap s.params.inCap d.length = true →
    exec (.crc16 d) s = .next { s with result := some (.crc (compute d)), work := WorkingState.start }

/-- R101, R102: the byte update and the output transform, as the rules write them. -/
def Obligations.CrcFollowsAlgorithm : Prop :=
  (∀ (c : Word) (b : Byte), crcUpdate c b =
    (fun c : Word => if c.getLsbD 0 then (c >>> 1) ^^^ 0xA001 else c >>> 1)^[8] (c ^^^ b.setWidth 16)) ∧
  crcFinal [] = 0xFFFF ∧ (∀ (d : List Byte) (b : Byte), crcFinal (d ++ [b]) = crcUpdate (crcFinal d) b) ∧
  (∀ d : List Byte, compute d = be16 (lo8 (crcFinal d)) (hi8 (crcFinal d)))

/-- R101: "0xA001 is the bit-reflected form of the polynomial": a byte through the accumulator is, bit-reversed, a
byte through the most-significant-bit-first CRC of 0x8005. The spec marks that sentence as general knowledge. -/
def Obligations.CrcIsReflectedPolynomial : Prop :=
  ∀ (c : Word) (b : Byte),
    (crcUpdate c b).reverse = Nat.repeat msbRound 8 (c.reverse ^^^ (b.reverse.setWidth 16 <<< 8))

/-- R104: a sequence followed by the two wire bytes of its CRC leaves zero. The spec marks the rule as general
knowledge. -/
def Obligations.CrcResidueIsZero : Prop :=
  ∀ d : List Byte, crcFinal (d ++ [hi8 (compute d), lo8 (compute d)]) = 0x0000

/-- R105: a correct frame with exactly one byte changed fails the CRC comparison. The spec marks the rule as general
knowledge. -/
def Obligations.CrcDetectsOneChangedByte : Prop :=
  ∀ (d : List Byte) (i : Nat) (b : Byte), i < d.length + 2 → byteAt (d ++ wordBytes (compute d)) i ≠ b →
    wordAt ((d ++ wordBytes (compute d)).set i b) d.length ≠
      compute (((d ++ wordBytes (compute d)).set i b).take d.length)

/-! ## PACK, UNPACK, UNPACK_MAX -/

/-- R90: PACK. The limit is the spec's decision D21. -/
def Obligations.PackDeliversPackedBits : Prop :=
  ∀ (s : State) (bits : List Bool),
    (withinCap s.params.bitsCap bits.length = true →
      exec (.pack bits) s = .next { s with result := some (.bytes (packBits bits)), work := WorkingState.start }) ∧
    (withinCap s.params.bitsCap bits.length = false →
      exec (.pack bits) s = .refused (.operandTooLong bits.length)) ∧
    (packBits bits).length = ceil8 bits.length ∧
    (∀ k j, k < ceil8 bits.length → j < 8 →
      (byteAt (packBits bits) k).getLsbD j = (decide (8 * k + j < bits.length) && bits.getD (8 * k + j) false)) ∧
    decode (.command 0x02 { bits := bits }) = .ok (.pack bits)

/-- R91: UNPACK. -/
def Obligations.UnpackDeliversBits : Prop :=
  ∀ (s : State) (d : List Byte),
    (withinCap s.params.inCap d.length = true →
      exec (.unpack d) s = .next { s with result := some (.bits (unpackBytes d)), work := WorkingState.start }) ∧
    (withinCap s.params.inCap d.length = false → exec (.unpack d) s = .refused (.operandTooLong d.length)) ∧
    (unpackBytes d).length = 8 * d.length ∧
    (∀ i, i < 8 * d.length → (unpackBytes d)[i]? = some ((byteAt d (i / 8)).getLsbD (i % 8))) ∧
    decode (.command 0x03 { input := d }) = .ok (.unpack d)

/-- R92: UNPACK_MAX. The width of the count and the absence of padding are the spec's decision D18. -/
def Obligations.UnpackMaxTruncates : Prop :=
  ∀ (s : State) (d : List Byte) (m : Word),
    (withinCap s.params.inCap d.length = true → ∃ bits,
      exec (.unpackMax d m) s = .next { s with result := some (.bits bits), work := WorkingState.start } ∧
      bits = (unpackBytes d).take m.toNat ∧ bits.length = min m.toNat (8 * d.length)) ∧
    decode (.command 0x04 { input := d, maxCount := m }) = .ok (.unpackMax d m)

/-- R93: lossless up to padding, both ways. The last clause is the spec's own inference from R90 and R91. -/
def Obligations.PackUnpackLossless : Prop :=
  (∀ bits : List Bool, unpackBytes (packBits bits) = padBits bits) ∧
  (∀ bits : List Bool, bits.length ≤ 65535 →
    unpackBytesMax (packBits bits) (BitVec.ofNat 16 bits.length) = bits) ∧
  (∀ d : List Byte, packBits (unpackBytes d) = d)

/-- R26, R27, R94: the streams over the working state give the whole results, as far as the host takes them. Whole
results at completion are the spec's decision D19; the element-wise streams are log 5. -/
def Obligations.StreamsGiveWholeResults : Prop :=
  (∀ bits : List Bool, packStream WorkingState.start bits = packBits bits) ∧
  (∀ (d : List Byte) (n : Nat), unpackStream d n WorkingState.start = (unpackBytes d).take n) ∧
  (∀ d : List Byte, (d.foldl crcByte WorkingState.start).crc = crcFinal d)

/-! ## PARSE -/

/-- R110: PARSE on every span that `IN_CAP` admits, of 0 and 1 bytes too, and each row of its dispatch on every such
span with the row's function code, complete with the parser's result, from every state. -/
def Obligations.ParseAndItsRowsComplete : Prop :=
  ∀ s : State,
    let completes := fun (i : Instr) (d : List Byte) => withinCap s.params.inCap d.length = true →
      exec i s = .next { s with result := some (.parsed (parseFrame d)), work := WorkingState.start }
    (∀ d : List Byte, completes (.parse d) d) ∧
    ∀ (slave fc : Byte) (rest : List Byte),
      completes (.parseReadCoils slave rest) (slave :: 0x01 :: rest) ∧
      completes (.parseReadDiscreteInputs slave rest) (slave :: 0x02 :: rest) ∧
      completes (.parseReadHoldingRegisters slave rest) (slave :: 0x03 :: rest) ∧
      completes (.parseReadInputRegisters slave rest) (slave :: 0x04 :: rest) ∧
      completes (.parseWriteSingleCoil slave rest) (slave :: 0x05 :: rest) ∧
      completes (.parseWriteSingleHoldingRegister slave rest) (slave :: 0x06 :: rest) ∧
      completes (.parseWriteMultipleCoils slave rest) (slave :: 0x0F :: rest) ∧
      completes (.parseWriteMultipleHoldingRegisters slave rest) (slave :: 0x10 :: rest) ∧
      (FunctionCode.ofByte? fc = none → completes (.parseIllegalFunction slave fc rest) (slave :: fc :: rest))

/-- R111: step S1. -/
def Obligations.ParseNeedsFourBytes : Prop :=
  ∀ d : List Byte, d.length < 4 → ParsesTo d { code := .slaveDeviceFailure, frame := none, bytesRead := 0 }

/-- R122: missing fixed payload bytes. The spec's decision D7. -/
def Obligations.ParseNeedsFixedPayloadBytes : Prop :=
  ∀ (slave fc : Byte) (rest : List Byte),
    (fc ∈ ([1, 2, 3, 4, 5, 6] : List Byte) ∧ rest.length < 4) ∨ (fc ∈ ([0x0F, 0x10] : List Byte) ∧ rest.length < 5) →
    ParsesTo (slave :: fc :: rest) { code := .slaveDeviceFailure, frame := none, bytesRead := 0 }

/-- R114: the read family, any values, then step S4 at `p = 6`. -/
def Obligations.ParseReadFamily : Prop :=
  ∀ (slave fc b2 b3 b4 b5 : Byte) (tail : List Byte) (mk : Word → Word → Payload),
    (fc = 0x01 ∧ mk = .readCoilsRequest) ∨ (fc = 0x02 ∧ mk = .readDiscreteInputsRequest) ∨
      (fc = 0x03 ∧ mk = .readRegistersRequest) ∨ (fc = 0x04 ∧ mk = .readInputsRequest) →
    EndsByCrc (slave :: fc :: b2 :: b3 :: b4 :: b5 :: tail) { slaveAddress := slave, command := fc }
      (mk (be16 b2 b3) (be16 b4 b5)) 6

/-- R115, R116: the write-single family; a coil value other than the two legal ones is rejected at once, whatever
follows it. Which coil value is true is the spec's decision D11. -/
def Obligations.ParseWriteSingleFamily : Prop :=
  ∀ (slave b2 b3 b4 b5 : Byte) (tail : List Byte),
    (be16 b4 b5 = 0xFF00 →
      EndsByCrc (slave :: 0x05 :: b2 :: b3 :: b4 :: b5 :: tail) { slaveAddress := slave, command := 0x05 }
        (.writeCoilRequest (be16 b2 b3) true) 6) ∧
    (be16 b4 b5 = 0x0000 →
      EndsByCrc (slave :: 0x05 :: b2 :: b3 :: b4 :: b5 :: tail) { slaveAddress := slave, command := 0x05 }
        (.writeCoilRequest (be16 b2 b3) false) 6) ∧
    (be16 b4 b5 ≠ 0xFF00 → be16 b4 b5 ≠ 0x0000 →
      ParsesTo (slave :: 0x05 :: b2 :: b3 :: b4 :: b5 :: tail)
        { code := .illegalDataValue,
          frame := some { header := { slaveAddress := slave, command := 0x05 }, payload := none }, bytesRead := 2 }) ∧
    EndsByCrc (slave :: 0x06 :: b2 :: b3 :: b4 :: b5 :: tail) { slaveAddress := slave, command := 0x06 }
      (.writeRegisterRequest (be16 b2 b3) (be16 b4 b5)) 6

/-- R118: the byte-count overrun. The absent frame is the spec's decision D8. -/
def Obligations.ParseByteCountOverrun : Prop :=
  ∀ (slave fc b2 b3 b4 b5 bc : Byte) (rest : List Byte), fc ∈ ([0x0F, 0x10] : List Byte) → rest.length < bc.toNat →
    ParsesTo (slave :: fc :: b2 :: b3 :: b4 :: b5 :: bc :: rest)
      { code := .illegalDataValue, frame := none, bytesRead := 0 }

/-- R117, R119: WriteMultipleCoils, then step S4 at `p = 7 + bc`. -/
def Obligations.ParseWriteMultipleCoils : Prop :=
  ∀ (slave b2 b3 b4 b5 bc : Byte) (data tail : List Byte), data.length = bc.toNat →
    ∃ vs : List Bool, vs.length = min (be16 b4 b5).toNat (8 * bc.toNat) ∧
      (∀ i, i < vs.length → vs[i]? = some ((byteAt data (i / 8)).getLsbD (i % 8))) ∧
      EndsByCrc (slave :: 0x0F :: b2 :: b3 :: b4 :: b5 :: bc :: (data ++ tail))
        { slaveAddress := slave, command := 0x0F } (.writeCoilsRequest (be16 b2 b3) vs) (7 + bc.toNat)

/-- R117, R120: WriteMultipleHoldingRegisters, then step S4 at `p = 7 + bc`; an odd last byte is in no value. What
becomes of it is the spec's decision D12. -/
def Obligations.ParseWriteMultipleRegisters : Prop :=
  ∀ (slave b2 b3 b4 b5 bc : Byte) (data tail : List Byte), data.length = bc.toNat →
    ∃ vs : List Word, vs.length = bc.toNat / 2 ∧
      (∀ i, i < vs.length → vs[i]? = some (be16 (byteAt data (2 * i)) (byteAt data (2 * i + 1)))) ∧
      EndsByCrc (slave :: 0x10 :: b2 :: b3 :: b4 :: b5 :: bc :: (data ++ tail))
        { slaveAddress := slave, command := 0x10 } (.writeRegistersRequest (be16 b2 b3) vs) (7 + bc.toNat)

/-- R121: an unknown function code consumes one byte, whatever follows. The synthetic header is the spec's decision
D9. -/
def Obligations.ParseUnknownFunctionCode : Prop :=
  ∀ (slave fc : Byte) (rest : List Byte), 2 ≤ rest.length →
    fc ∉ ([0x01, 0x02, 0x03, 0x04, 0x05, 0x06, 0x0F, 0x10] : List Byte) →
    ParsesTo (slave :: fc :: rest)
      { code := .illegalFunction,
        frame := some { header := { slaveAddress := slave, command := fc }, payload := none }, bytesRead := 1 }

/-- R38, R129: every span has a result; it is in exactly the class its parts say; a frame is there exactly when bytes
are consumed, never more than there are; a frame has the span's header and a payload exactly on success; and a reject
is one of the three of the table. The table and the classes are the spec's own inference from R111 to R126. -/
def Obligations.ParseResultTable : Prop :=
  ∀ d : List Byte, ∃ r, ParsesTo d r ∧
    (r.frame = none ↔ r.bytesRead = 0) ∧ r.bytesRead ≤ d.length ∧
    (r.frame = none → r.code = .slaveDeviceFailure ∨ r.code = .illegalDataValue) ∧
    (∀ f, r.frame = some f → f.header = headerOf d ∧ (f.payload = none ↔ r.code ≠ .noError)) ∧
    (r.parseClass = .incomplete ↔ r.frame = none) ∧
    (∀ f, r.parseClass = .ok f ↔ r.code = .noError ∧ r.frame = some f) ∧
    (∀ c, r.parseClass = .rejected c ↔
      r.code = c ∧ c ≠ .noError ∧ r.frame = some { header := headerOf d, payload := none }) ∧
    (∀ c, r.parseClass = .rejected c →
      (c = .illegalDataValue ∧ r.bytesRead = 2) ∨ (c = .illegalFunction ∧ r.bytesRead = 1) ∨
      (c = .memoryParityError ∧ 8 ≤ r.bytesRead ∧ r.bytesRead ≤ 264))

/-- R131: the five codes PARSE returns. The spec's own inference from R129. -/
def Obligations.ParseReturnsOnlyFiveCodes : Prop :=
  ∀ (d : List Byte) (s t : State), exec (.parse d) s = .next t →
    ∃ r, t.result = some (.parsed r) ∧
      (r.code = .noError ∨ r.code = .illegalFunction ∨ r.code = .illegalDataValue ∨ r.code = .slaveDeviceFailure ∨
        r.code = .memoryParityError)

/-- R127: what PARSE's result depends on. A span that agrees with `d` on the bytes below `d`'s bound, as far as both
have them, and on the outcomes of `d`'s length tests has the same result; a frame that is consumed whole, valid or
not, is decided by its own bytes, whatever stands after them; and bytes appended to a span do not change a result that
consumes bytes. The spec's own inference from R110. -/
def Obligations.ParseIgnoresBytesAfterFrame : Prop :=
  ∀ (d e : List Byte) (r : ParseResult), ParsesTo d r →
    ((∀ a, a < (parseBounds d).1 → a < d.length → a < e.length → byteAt e a = byteAt d a) →
      (∀ n, n ∈ (parseBounds d).2 → (e.length < n ↔ d.length < n)) → ParsesTo e r) ∧
    (r.code = .noError ∨ r.code = .memoryParityError → e.take r.bytesRead = d.take r.bytesRead → ParsesTo e r) ∧
    (r.bytesRead ≠ 0 → ParsesTo (d ++ e) r)

/-- R130: a frame arriving a byte at a time is Incomplete until it is all there. The spec's own inference from R111 to
R126. -/
def Obligations.ParsePrefixesAreIncomplete : Prop :=
  ∀ (d : List Byte) (f : Frame) (n : Nat),
    ParsesTo d { code := .noError, frame := some f, bytesRead := n } →
    (∀ k, k < n → ∃ r, ParsesTo (d.take k) r ∧ r.parseClass = .incomplete) ∧
    ParsesTo (d.take n) { code := .noError, frame := some f, bytesRead := n }

/-- R133: one junk byte before an Ok frame is skipped exactly when the frame's slave address is no function code. The
spec's own inference from R113 and R121. -/
def Obligations.ParseResynchronises : Prop :=
  ∀ (j : Byte) (d : List Byte) (f : Frame) (n : Nat),
    ParsesTo d { code := .noError, frame := some f, bytesRead := n } →
    (byteAt d 0 ∉ ([0x01, 0x02, 0x03, 0x04, 0x05, 0x06, 0x0F, 0x10] : List Byte) →
      ParsesTo (j :: d)
        { code := .illegalFunction,
          frame := some { header := { slaveAddress := j, command := byteAt d 0 }, payload := none }, bytesRead := 1 } ∧
      ParsesTo ((j :: d).drop 1) { code := .noError, frame := some f, bytesRead := n }) ∧
    (byteAt d 0 ∈ ([0x01, 0x02, 0x03, 0x04, 0x05, 0x06, 0x0F, 0x10] : List Byte) →
      ∀ r, ParsesTo (j :: d) r → r.code ≠ .illegalFunction ∧ r.bytesRead ≠ 1)

/-- R134: one changed byte that leaves the path of rule R110 gives a MemoryParityError of the same length. The spec's
own inference from R110, R125 and R105. -/
def Obligations.ParseRejectsOneChangedByte : Prop :=
  ∀ (d : List Byte) (f : Frame) (i : Nat) (b : Byte),
    ParsesTo d { code := .noError, frame := some f, bytesRead := d.length } →
    i < d.length → byteAt d i ≠ b → i ≠ 1 →
    (byteAt d 1 = 0x0F ∨ byteAt d 1 = 0x10 → i ≠ 6) →
    (byteAt d 1 = 0x05 → wordAt (d.set i b) 4 = 0xFF00 ∨ wordAt (d.set i b) 4 = 0x0000) →
    ParsesTo (d.set i b)
      { code := .memoryParityError, frame := some { header := headerOf (d.set i b), payload := none },
        bytesRead := d.length }

/-- R187, R188, R189: a host's cursor stays in its buffer, moves on every result but Incomplete, and stays on Incomplete. -/
def Obligations.HostCursorStaysInBuffer : Prop :=
  ∀ (buffer : List Byte) (c : Nat) (r : ParseResult), c ≤ buffer.length → ParsesTo (buffer.drop c) r →
    r.nextOffset c ≤ buffer.length ∧ (r.parseClass = .incomplete → r.nextOffset c = c) ∧
      (r.parseClass ≠ .incomplete → r.nextOffset c = c + r.bytesRead ∧ c < r.nextOffset c)

/-- R26, R28, R103, R110: the parser that moves an offset through the span, and feeds the CRC accumulator with every
byte of header and payload as it reads it, gives PARSE's result. The element-wise parser is log 5. -/
def Obligations.ParseStreamGivesResult : Prop := ∀ d : List Byte, ParsesTo d (parseStream d WorkingState.start)

/-! ## SERIALIZE -/

/-- R65, R142, and R87 for EXCRESP: the exception response, for every exception code, and the refusal of other bytes.
The refusal is the spec's decision D17, the free bytes behind the image D13. -/
def Obligations.SerializeErrorPayload : Prop :=
  ∀ (s : State) (h : CommandHeader) (c : Byte),
    (c ∈ ([0, 1, 2, 3, 4, 5, 6, 7, 8, 0x0A, 0x0B] : List Byte) → 5 ≤ s.params.outCap →
      let d := [h.slaveAddress, h.command, c]
      Renders (.serialize { header := h, payload := some (.errorPayload c) }) (d ++ wordBytes (compute d)) s ∧
      Renders (.serializeErrorPayload h c) (d ++ wordBytes (compute d)) s) ∧
    (c ∉ ([0, 1, 2, 3, 4, 5, 6, 7, 8, 0x0A, 0x0B] : List Byte) →
      exec (.serialize { header := h, payload := some (.errorPayload c) }) s = .refused (.notAnExceptionCode c) ∧
      exec (.serializeErrorPayload h c) s = .refused (.notAnExceptionCode c))

/-- R87: EXCRESP renders the exception response with bit 7 of the function code set. The free bytes behind the image
are the spec's decision D13. -/
def Obligations.ExcrespRendersExceptionResponse : Prop :=
  ∀ (s : State) (addr fc c : Byte), c ∈ ([0, 1, 2, 3, 4, 5, 6, 7, 8, 0x0A, 0x0B] : List Byte) → 5 ≤ s.params.outCap →
    let d := [addr, fc ||| 0x80, c]
    Renders (.excresp addr fc c) (d ++ wordBytes (compute d)) s

/-- R66, R143: the two bit responses. The free bytes behind the image are the spec's decision D13. -/
def Obligations.SerializeBitResponses : Prop :=
  ∀ (s : State) (h : CommandHeader) (vs : List Bool), withinCap s.params.bitsCap vs.length = true →
    ceil8 vs.length ≤ 255 → 5 + ceil8 vs.length ≤ s.params.outCap →
    let d := [h.slaveAddress, h.command, BitVec.ofNat 8 (ceil8 vs.length)] ++ packBits vs
    let img := d ++ wordBytes (compute d)
    img.length = 5 + ceil8 vs.length ∧
    Renders (.serialize { header := h, payload := some (.readCoilsResponse vs) }) img s ∧
    Renders (.serializeReadCoilsResponse h vs) img s ∧
    Renders (.serialize { header := h, payload := some (.readDiscreteInputsResponse vs) }) img s ∧
    Renders (.serializeReadDiscreteInputsResponse h vs) img s

/-- R67, R144: the two register responses. The free bytes behind the image are the spec's decision D13. -/
def Obligations.SerializeRegisterResponses : Prop :=
  ∀ (s : State) (h : CommandHeader) (vs : List Word), withinCap s.params.bitsCap vs.length = true →
    2 * vs.length ≤ 255 → 5 + 2 * vs.length ≤ s.params.outCap →
    let d := [h.slaveAddress, h.command, BitVec.ofNat 8 (2 * vs.length)] ++ vs.flatMap (fun v => [hi8 v, lo8 v])
    let img := d ++ wordBytes (compute d)
    img.length = 5 + 2 * vs.length ∧
    Renders (.serialize { header := h, payload := some (.readRegistersResponse vs) }) img s ∧
    Renders (.serializeReadRegistersResponse h vs) img s ∧
    Renders (.serialize { header := h, payload := some (.readInputsResponse vs) }) img s ∧
    Renders (.serializeReadInputsResponse h vs) img s

/-- R68, R145, R146: the four write responses. The coil values are the spec's decision D11, the free bytes behind the
image D13. -/
def Obligations.SerializeWriteResponses : Prop :=
  ∀ (s : State) (h : CommandHeader) (a v : Word) (b : Bool), 8 ≤ s.params.outCap →
    let img := fun x y : Byte =>
      let d := [h.slaveAddress, h.command, hi8 a, lo8 a, x, y]
      d ++ wordBytes (compute d)
    Renders (.serialize { header := h, payload := some (.writeCoilResponse a b) }) (img (if b then 0xFF else 0x00) 0x00) s ∧
    Renders (.serializeWriteCoilResponse h a b) (img (if b then 0xFF else 0x00) 0x00) s ∧
    Renders (.serialize { header := h, payload := some (.writeRegisterResponse a v) }) (img (hi8 v) (lo8 v)) s ∧
    Renders (.serializeWriteRegisterResponse h a v) (img (hi8 v) (lo8 v)) s ∧
    Renders (.serialize { header := h, payload := some (.writeCoilsResponse a v) }) (img (hi8 v) (lo8 v)) s ∧
    Renders (.serializeWriteCoilsResponse h a v) (img (hi8 v) (lo8 v)) s ∧
    Renders (.serialize { header := h, payload := some (.writeRegistersResponse a v) }) (img (hi8 v) (lo8 v)) s ∧
    Renders (.serializeWriteRegistersResponse h a v) (img (hi8 v) (lo8 v)) s

/-- R147: a header-only frame and every request variant fail. The header-only frame is the spec's decision D14, the
free bytes D13. -/
def Obligations.UnrenderableShapesFail : Prop :=
  ∀ (s : State) (f : Frame), withinCap s.params.bitsCap (frameValueCount f) = true →
    (f.payload = none ∨ (∃ a n, f.payload = some (.readCoilsRequest a n)) ∨
      (∃ a n, f.payload = some (.readDiscreteInputsRequest a n)) ∨
      (∃ a n, f.payload = some (.readRegistersRequest a n)) ∨ (∃ a n, f.payload = some (.readInputsRequest a n)) ∨
      (∃ a v, f.payload = some (.writeCoilRequest a v)) ∨ (∃ a v, f.payload = some (.writeRegisterRequest a v)) ∨
      (∃ a vs, f.payload = some (.writeCoilsRequest a vs)) ∨ (∃ a vs, f.payload = some (.writeRegistersRequest a vs))) →
    FailsToRender (.serialize f) s ∧ FailsToRender (.serializeUnrenderable f) s

/-- R163: the three causes of a failure, and no other: without one, SERIALIZE succeeds with an image of the length of
rule R153's table. The limit of 255 is the spec's decision D15, the free bytes D13. -/
def Obligations.SerializeFailsForThreeCauses : Prop :=
  ∀ (s : State) (f : Frame), frameAccepted s.params f = true →
    match frameSize f with
    | none => FailsToRender (.serialize f) s
    | some (n, count) =>
      if n > s.params.outCap ∨ count > 255 then FailsToRender (.serialize f) s
      else ∃ img : List Byte, img.length = n ∧ Renders (.serialize f) img s

/-- R141, R148, R45: on success the header stands first, as given, and the CRC of everything before it last, the final
accumulator's low byte before its high byte. The unchanged command byte is the spec's decision D16. -/
def Obligations.HeaderFirstAndCrcLast : Prop :=
  ∀ (f : Frame) (s t : State) (n : Nat), exec (.serialize f) s = .next t → t.result = some (.serialized true n) →
    ∃ d : List Byte, d.length + 2 = n ∧ 2 ≤ d.length ∧ n ≤ s.params.outCap ∧
      byteAt d 0 = f.header.slaveAddress ∧ byteAt d 1 = f.header.command ∧
      (∀ a, a < d.length → t.outByte a = d[a]?) ∧
      t.outByte d.length = some (lo8 (crcFinal d)) ∧ t.outByte (d.length + 1) = some (hi8 (crcFinal d))

/-- R153: with the reference capacity of 256 bytes, up to 2008 coil values or 125 register values fit. The spec's own
inference from R141 to R149. -/
def Obligations.ReferenceCapacityBoundsBursts : Prop :=
  ∀ (s : State) (h : CommandHeader), s.params.outCap = 256 → s.params.bitsCap = none →
    (∀ vs : List Bool, (∃ t n, exec (.serializeReadCoilsResponse h vs) s = .next t ∧
      t.result = some (.serialized true n)) ↔ vs.length ≤ 2008) ∧
    (∀ vs : List Word, (∃ t n, exec (.serializeReadRegistersResponse h vs) s = .next t ∧
      t.result = some (.serialized true n)) ↔ vs.length ≤ 125)

/-- R154: the end-to-end scenario of the source. The spec's own inference from R144 and R148. -/
def Obligations.EndToEndScenario : Prop :=
  ParsesTo [0xC0, 0x03, 0x4E, 0x20, 0x00, 0x01, 0x82, 0x39]
    { code := .noError,
      frame := some { header := { slaveAddress := 192, command := 0x03 }, payload := some (.readRegistersRequest 20000 1) },
      bytesRead := 8 } ∧
  (∀ s : State, withinCap s.params.bitsCap 1 = true → 7 ≤ s.params.outCap →
    Renders (.serialize { header := { slaveAddress := 0xC0, command := 0x03 }, payload := some (.readRegistersResponse [1]) })
      [0xC0, 0x03, 0x02, 0x00, 0x01, 0x44, 0x55] s)

/-- R155: a write-single response survives SERIALIZE and PARSE, as the request with equal fields. The spec's own
inference from R145, R147, R115, R116 and R126. -/
def Obligations.WriteSingleRoundTrip : Prop :=
  ∀ (s : State) (slave : Byte) (a v : Word) (b : Bool), 8 ≤ s.params.outCap →
    (∃ img, Renders (.serialize ⟨⟨slave, 0x05⟩, some (.writeCoilResponse a b)⟩) img s ∧
      ParsesTo img ⟨.noError, some ⟨⟨slave, 0x05⟩, some (.writeCoilRequest a b)⟩, 8⟩) ∧
    (∃ img, Renders (.serialize ⟨⟨slave, 0x06⟩, some (.writeRegisterResponse a v)⟩) img s ∧
      ParsesTo img ⟨.noError, some ⟨⟨slave, 0x06⟩, some (.writeRegisterRequest a v)⟩, 8⟩)

/-- R26, R28, R149: the renderer that writes byte after byte, runs the CRC accumulator over what it wrote, and stops
where the buffer ends, agrees with SERIALIZE: failing "at any step" is failing when the whole image does not fit. The
spec's own inference from R141 to R148; the byte-wise renderer is log 5. -/
def Obligations.RenderStreamAgrees : Prop :=
  ∀ (s : State) (f : Frame), frameAccepted s.params f = true →
    match renderStream s.params.outCap f WorkingState.start with
    | none => FailsToRender (.serialize f) s
    | some img => Renders (.serialize f) img s
end

