-- ==== Sys2Proof/Laws/BitPack.lean ====
section
/-! SUPPORT. The packer and unpacker, bit by bit. -/

namespace Sys2Proof.Machine

/-- Setting the bits below `n` that `p` names, one after the other. -/
theorem setBits_getLsbD (p : Nat → Bool) (n i : Nat) (hn : n ≤ 8) :
    ((List.range n).foldl (fun acc j => if p j then acc ||| (1#8 <<< j) else acc) 0#8).getLsbD i =
      (decide (i < n) && p i) := by
  induction n with
  | zero => simp
  | succ n ih =>
    rw [List.range_succ, List.foldl_append, List.foldl_cons, List.foldl_nil]
    have ih := ih (by omega)
    by_cases hp : p n = true
    · rw [if_pos hp, BitVec.getLsbD_or, ih]
      by_cases hi : i < n
      · simp [hi, show i < n + 1 by omega]
      · by_cases he : i = n
        · subst he
          simp [hp, show i < 8 by omega]
        · have h1 : ¬ i < n + 1 := by omega
          have h2 : ¬ (i - n = 0) := by omega
          simp [hi, h1, BitVec.getLsbD_one, h2]
    · rw [if_neg hp, ih]
      by_cases hi : i < n
      · simp [hi, show i < n + 1 by omega]
      · by_cases he : i = n
        · subst he
          simp [hp]
        · simp [hi, show ¬ i < n + 1 by omega]

/-- Bit `j` of packed byte `k` is element `8k + j` (R46, R90). -/
theorem packByte_getLsbD (bits : List Bool) (k j : Nat) :
    (packByte bits k).getLsbD j = (decide (j < 8) && bits.getD (8 * k + j) false) :=
  setBits_getLsbD (fun j => bits.getD (8 * k + j) false) 8 j (Nat.le_refl 8)

@[simp] theorem packBits_length (bits : List Bool) : (packBits bits).length = ceil8 bits.length := by simp [packBits]

theorem packBits_getElem? (bits : List Bool) (k : Nat) (h : k < ceil8 bits.length) :
    (packBits bits)[k]? = some (packByte bits k) := by simp [packBits, h]

@[simp] theorem byteBits_length (b : Byte) : (byteBits b).length = 8 := rfl

theorem byteBits_getElem? (b : Byte) (j : Nat) (h : j < 8) : (byteBits b)[j]? = some (b.getLsbD j) := by
  simp [byteBits, h]

@[simp] theorem unpackBytes_nil : unpackBytes [] = [] := rfl

theorem unpackBytes_cons (b : Byte) (d : List Byte) : unpackBytes (b :: d) = byteBits b ++ unpackBytes d := rfl

@[simp] theorem unpackBytes_length (d : List Byte) : (unpackBytes d).length = 8 * d.length := by
  induction d with
  | nil => rfl
  | cons b d ih =>
    rw [unpackBytes_cons, List.length_append, byteBits_length, ih, List.length_cons]
    omega

/-- Element `i` of UNPACK is bit `i mod 8` of byte `i div 8` (R91). -/
theorem unpackBytes_getElem? (d : List Byte) (i : Nat) (h : i < 8 * d.length) :
    (unpackBytes d)[i]? = some ((d.getD (i / 8) 0).getLsbD (i % 8)) := by
  induction d generalizing i with
  | nil => simp at h
  | cons b d ih =>
    rw [unpackBytes_cons]
    by_cases h8 : i < 8
    · rw [List.getElem?_append_left (by simpa using h8), byteBits_getElem? b i h8, Nat.div_eq_of_lt h8,
        Nat.mod_eq_of_lt h8]
      rfl
    · rw [List.getElem?_append_right (by simpa using h8), byteBits_length,
        ih (i - 8) (by rw [List.length_cons] at h; omega),
        show i / 8 = (i - 8) / 8 + 1 by omega, show i % 8 = (i - 8) % 8 by omega]
      rfl

@[simp] theorem unpackBytesMax_length (d : List Byte) (m : Word) :
    (unpackBytesMax d m).length = min m.toNat (8 * d.length) := by simp [unpackBytesMax]

@[simp] theorem padBits_length (s : List Bool) : (padBits s).length = 8 * ceil8 s.length := by
  simp [padBits, ceil8]
  omega

end Sys2Proof.Machine
end

