-- ==== Sys2Proof/Laws/Codes.lean ====
section
/-! SUPPORT. The enumerations and their numbers. -/

namespace Sys2Proof

/-- A byte names at most one function code, the one whose value it is. -/
theorem FunctionCode.ofByte?_eq_some (b : Byte) (c : FunctionCode) :
    FunctionCode.ofByte? b = some c ↔ c.toByte = b := by
  constructor
  · intro h
    simpa using List.find?_some h
  · rintro rfl
    cases c <;> rfl

@[simp] theorem FunctionCode.ofByte?_toByte (c : FunctionCode) : FunctionCode.ofByte? c.toByte = some c :=
  (FunctionCode.ofByte?_eq_some _ _).2 rfl

theorem FunctionCode.ofByte?_eq_none (b : Byte) :
    FunctionCode.ofByte? b = none ↔ ∀ c : FunctionCode, c.toByte ≠ b := by
  rw [Option.eq_none_iff_forall_ne_some]
  exact forall_congr' fun c => not_congr (FunctionCode.ofByte?_eq_some b c)

theorem ExceptionCode.ofByte?_eq_some (b : Byte) (c : ExceptionCode) :
    ExceptionCode.ofByte? b = some c ↔ c.toByte = b := by
  constructor
  · intro h
    simpa using List.find?_some h
  · rintro rfl
    cases c <;> rfl

@[simp] theorem ExceptionCode.ofByte?_toByte (c : ExceptionCode) : ExceptionCode.ofByte? c.toByte = some c :=
  (ExceptionCode.ofByte?_eq_some _ _).2 rfl

theorem ExceptionCode.ofByte?_eq_none (b : Byte) :
    ExceptionCode.ofByte? b = none ↔ ∀ c : ExceptionCode, c.toByte ≠ b := by
  rw [Option.eq_none_iff_forall_ne_some]
  exact forall_congr' fun c => not_congr (ExceptionCode.ofByte?_eq_some b c)

/-- The frame port gives back the frame put on it. -/
@[simp] theorem FramePort.toFrame?_ofFrame (f : Frame) : (FramePort.ofFrame f).toFrame? = some f := by
  obtain ⟨⟨_, _⟩, p⟩ := f
  rcases p with _ | p
  · rfl
  · cases p <;> rfl

end Sys2Proof
end

