-- ==== Sys2Proof/Laws/Operands.lean ====
section
/-! SUPPORT. Bytes and words: the big-endian assembly and its inverse, reads of a span written out, the length limits. -/

namespace Sys2Proof.Machine

theorem hi8_getLsbD (w : Word) (i : Nat) : (hi8 w).getLsbD i = (decide (i < 8) && w.getLsbD (8 + i)) := by
  simp [hi8, BitVec.getLsbD_extractLsb']

theorem lo8_getLsbD (w : Word) (i : Nat) : (lo8 w).getLsbD i = (decide (i < 8) && w.getLsbD i) := by
  simp [lo8, BitVec.getLsbD_extractLsb']

theorem be16_getLsbD (h l : Byte) (i : Nat) :
    (be16 h l).getLsbD i = (decide (i < 16) && (if i < 8 then l.getLsbD i else h.getLsbD (i - 8))) := by
  by_cases hi : i < 16
  · by_cases h8 : i < 8
    · simp [be16, hi, h8]
    · simp [be16, hi, h8, BitVec.getLsbD_of_ge l i (by omega)]
  · simp [be16, hi]

@[simp] theorem be16_hi8_lo8 (w : Word) : be16 (hi8 w) (lo8 w) = w := by
  apply BitVec.eq_of_getLsbD_eq
  intro i hi
  rw [be16_getLsbD, hi8_getLsbD, lo8_getLsbD]
  by_cases h8 : i < 8
  · simp [hi, h8]
  · simp [hi, h8, show i - 8 < 8 by omega, show 8 + (i - 8) = i by omega]

@[simp] theorem hi8_be16 (h l : Byte) : hi8 (be16 h l) = h := by
  apply BitVec.eq_of_getLsbD_eq
  intro i hi
  rw [hi8_getLsbD, be16_getLsbD]
  simp [hi, show 8 + i < 16 by omega, show ¬ 8 + i < 8 by omega]

@[simp] theorem lo8_be16 (h l : Byte) : lo8 (be16 h l) = l := by
  apply BitVec.eq_of_getLsbD_eq
  intro i hi
  rw [lo8_getLsbD, be16_getLsbD]
  simp [hi, show i < 16 by omega]

@[simp] theorem hi8_swap16 (w : Word) : hi8 (swap16 w) = lo8 w := hi8_be16 _ _
@[simp] theorem lo8_swap16 (w : Word) : lo8 (swap16 w) = hi8 w := lo8_be16 _ _
@[simp] theorem swap16_swap16 (w : Word) : swap16 (swap16 w) = w := by
  rw [swap16, hi8_swap16, lo8_swap16, be16_hi8_lo8]

@[simp] theorem wordBytes_length (w : Word) : (wordBytes w).length = 2 := rfl
theorem be16_eq_iff (h l : Byte) (w : Word) : be16 h l = w ↔ h = hi8 w ∧ l = lo8 w := by
  constructor
  · rintro rfl
    simp
  · rintro ⟨rfl, rfl⟩
    simp

@[simp] theorem byteAt_cons_zero (b : Byte) (d : List Byte) : byteAt (b :: d) 0 = b := rfl
@[simp] theorem byteAt_cons_succ (b : Byte) (d : List Byte) (k : Nat) : byteAt (b :: d) (k + 1) = byteAt d k := rfl

@[simp] theorem headerOf_cons_cons (a c : Byte) (d : List Byte) :
    headerOf (a :: c :: d) = { slaveAddress := a, command := c } := rfl

/-- A byte within the first part of a span. -/
theorem byteAt_append_left (d e : List Byte) (k : Nat) (h : k < d.length) : byteAt (d ++ e) k = byteAt d k := by
  simp [byteAt, List.getElem?_append_left h]

@[simp] theorem withinCap_none (n : Nat) : withinCap none n = true := rfl

/-- A limit admits every shorter length too. -/
theorem withinCap_mono (cap : Option Nat) (m n : Nat) (h : m ≤ n) (hn : withinCap cap n = true) :
    withinCap cap m = true := by
  cases cap with
  | none => rfl
  | some c =>
    simp only [withinCap, decide_eq_true_eq] at hn ⊢
    omega

end Sys2Proof.Machine
end

