-- ==== Sys2Proof/Laws/Crc.lean ====
section
/-! SUPPORT. The CRC accumulator: folding over a sequence, and that no round and no byte loses information. -/

namespace Sys2Proof.Machine

@[simp] theorem crcFold_nil (c : Word) : crcFold c [] = c := rfl
@[simp] theorem crcFold_cons (c : Word) (b : Byte) (d : List Byte) : crcFold c (b :: d) = crcFold (crcUpdate c b) d := rfl

theorem crcFold_append (c : Word) (d e : List Byte) : crcFold c (d ++ e) = crcFold (crcFold c d) e :=
  List.foldl_append

theorem crcFinal_append (d e : List Byte) : crcFinal (d ++ e) = crcFold (crcFinal d) e := crcFold_append _ _ _

/-- One round, bit by bit: every bit moves one place down, and where bit 0 was set the polynomial's bits flip. -/
theorem crcRound_getLsbD (c : Word) (i : Nat) :
    (crcRound c).getLsbD i = (c.getLsbD (i + 1) ^^ (c.getLsbD 0 && crcPoly.getLsbD i)) := by
  have h1 : (c >>> 1).getLsbD i = c.getLsbD (i + 1) := by simp [Nat.add_comm]
  unfold crcRound
  by_cases h0 : c.getLsbD 0 = true
  · rw [if_pos h0, BitVec.getLsbD_xor, h1, h0, Bool.true_and]
  · rw [if_neg h0, h1, Bool.eq_false_iff.2 h0, Bool.false_and, Bool.xor_false]

/-- A round loses nothing: its top bit says which way it went. -/
theorem crcRound_injective : Function.Injective crcRound := by
  intro c d h
  have bit : ∀ i, i < 16 → (crcRound c).getLsbD i = (crcRound d).getLsbD i := fun i _ => by rw [h]
  have h0 : c.getLsbD 0 = d.getLsbD 0 := by
    have := bit 15 (by decide)
    rw [crcRound_getLsbD, crcRound_getLsbD] at this
    rw [show crcPoly.getLsbD 15 = true from rfl, BitVec.getLsbD_of_ge c 16 (by decide),
      BitVec.getLsbD_of_ge d 16 (by decide)] at this
    simpa only [Bool.and_true, Bool.false_xor] using this
  apply BitVec.eq_of_getLsbD_eq
  intro i hi
  cases i with
  | zero => exact h0
  | succ i =>
    have := bit i (by omega)
    rw [crcRound_getLsbD, crcRound_getLsbD, h0] at this
    simpa using this

/-- One byte loses nothing of the accumulator. -/
theorem crcUpdate_injective (b : Byte) : Function.Injective (fun c => crcUpdate c b) := by
  intro c d h
  have h8 : c ^^^ b.setWidth 16 = d ^^^ b.setWidth 16 := by
    simp only [crcUpdate, Nat.repeat] at h
    exact crcRound_injective (crcRound_injective (crcRound_injective (crcRound_injective
      (crcRound_injective (crcRound_injective (crcRound_injective (crcRound_injective h)))))))
  simpa using h8

/-- Two bytes never take one accumulator to the same value. -/
theorem crcUpdate_byte_injective (c : Word) : Function.Injective (crcUpdate c) := by
  intro a b h
  have h8 : c ^^^ a.setWidth 16 = c ^^^ b.setWidth 16 := by
    simp only [crcUpdate, Nat.repeat] at h
    exact crcRound_injective (crcRound_injective (crcRound_injective (crcRound_injective
      (crcRound_injective (crcRound_injective (crcRound_injective (crcRound_injective h)))))))
  have h16 : a.setWidth 16 = b.setWidth 16 := by simpa using h8
  apply BitVec.eq_of_getLsbD_eq
  intro i hi
  have := congrArg (fun w : Word => w.getLsbD i) h16
  simpa [show i < 16 by omega] using this

/-- Equal bytes keep different accumulators different. -/
theorem crcFold_injective (d : List Byte) : Function.Injective (fun c => crcFold c d) := by
  induction d with
  | nil => exact fun _ _ h => h
  | cons b d ih => exact fun x y h => crcUpdate_injective b (ih h)

end Sys2Proof.Machine
end

