-- ==== Sys2Proof/Laws/State.lean ====
section
/-! SUPPORT. One lemma for each field and each update of State, by `rfl`. -/

namespace Sys2Proof.Machine

@[simp] theorem State.complete_params (s : State) (r : Result) : (s.complete r).params = s.params := rfl
@[simp] theorem State.complete_host (s : State) (r : Result) : (s.complete r).host = s.host := rfl
@[simp] theorem State.complete_out (s : State) (r : Result) : (s.complete r).out = s.out := rfl
@[simp] theorem State.complete_result (s : State) (r : Result) : (s.complete r).result = some r := rfl
@[simp] theorem State.complete_work (s : State) (r : Result) : (s.complete r).work = WorkingState.start := rfl
@[simp] theorem State.complete_draws (s : State) (r : Result) : (s.complete r).draws = s.draws := rfl
@[simp] theorem State.complete_outByte (s : State) (r : Result) (a : Nat) : (s.complete r).outByte a = s.outByte a := rfl

@[simp] theorem State.unspecifyOut_params (s : State) (n : Nat) : (s.unspecifyOut n).params = s.params := rfl
@[simp] theorem State.unspecifyOut_host (s : State) (n : Nat) : (s.unspecifyOut n).host = s.host := rfl
@[simp] theorem State.unspecifyOut_result (s : State) (n : Nat) : (s.unspecifyOut n).result = s.result := rfl
@[simp] theorem State.unspecifyOut_work (s : State) (n : Nat) : (s.unspecifyOut n).work = s.work := rfl
@[simp] theorem State.unspecifyOut_draws (s : State) (n : Nat) : (s.unspecifyOut n).draws = s.draws + 1 := rfl

@[simp] theorem State.abandon_params (s : State) : s.abandon.params = s.params := rfl
@[simp] theorem State.abandon_host (s : State) : s.abandon.host = s.host := rfl
@[simp] theorem State.abandon_result (s : State) : s.abandon.result = none := rfl
@[simp] theorem State.abandon_work (s : State) : s.abandon.work = WorkingState.start := rfl
@[simp] theorem State.abandon_draws (s : State) : s.abandon.draws = s.draws + 1 := rfl
@[simp] theorem State.abandon_outByte (s : State) (a : Nat) : s.abandon.outByte a = (s.unspecifyOut 0).outByte a := rfl

@[simp] theorem State.resetIdle_params (s : State) : s.resetIdle.params = s.params := rfl
@[simp] theorem State.resetIdle_host (s : State) : s.resetIdle.host = s.host := rfl
@[simp] theorem State.resetIdle_out (s : State) : s.resetIdle.out = s.out := rfl
@[simp] theorem State.resetIdle_result (s : State) : s.resetIdle.result = none := rfl
@[simp] theorem State.resetIdle_work (s : State) : s.resetIdle.work = WorkingState.start := rfl
@[simp] theorem State.resetIdle_draws (s : State) : s.resetIdle.draws = s.draws := rfl

@[simp] theorem State.serializeFail_params (s : State) : s.serializeFail.params = s.params := rfl
@[simp] theorem State.serializeFail_host (s : State) : s.serializeFail.host = s.host := rfl
@[simp] theorem State.serializeFail_result (s : State) : s.serializeFail.result = some (.serialized false 0) := rfl
@[simp] theorem State.serializeFail_work (s : State) : s.serializeFail.work = WorkingState.start := rfl
@[simp] theorem State.serializeFail_draws (s : State) : s.serializeFail.draws = s.draws + 1 := rfl

@[simp] theorem State.serializeOk_params (s : State) (d : List Byte) : (s.serializeOk d).params = s.params := rfl
@[simp] theorem State.serializeOk_host (s : State) (d : List Byte) : (s.serializeOk d).host = s.host := rfl
@[simp] theorem State.serializeOk_result (s : State) (d : List Byte) :
    (s.serializeOk d).result = some (.serialized true d.length) := rfl
@[simp] theorem State.serializeOk_work (s : State) (d : List Byte) : (s.serializeOk d).work = WorkingState.start := rfl
@[simp] theorem State.serializeOk_draws (s : State) (d : List Byte) : (s.serializeOk d).draws = s.draws + 1 := rfl

@[simp] theorem State.withFetchWord_host (s : State) (nbits w : Nat) :
    (s.withFetchWord nbits w).host = .issue (tableWord nbits w) .quiet :: s.host := rfl

/-- Putting a state's own queue back gives the state. -/
@[simp] theorem State.withFetchWord_taken (s : State) (nbits w : Nat) :
    { s.withFetchWord nbits w with host := s.host } = s := rfl

/-- With nothing pending the block waits. -/
theorem step_idle (s : State) (h : s.host = []) : step s = .next s := by simp [step, h]

/-- A step is the head of the queue, done on the state without it. -/
theorem step_cons (s : State) (e : HostEvent) (rest : List HostEvent) (h : s.host = e :: rest) :
    step s = hostEvent e { s with host := rest } := by simp [step, h]

end Sys2Proof.Machine
end

