-- ==== Sys2Proof/Laws/Memory.lean ====
section
/-! SUPPORT. The bytes of `Out`: what reads after a write, that every operation keeps the canonical form, and that it lists
no offset above the ones written. -/

namespace Sys2Proof.Machine

@[simp] theorem Memory.read_nil (a : Nat) : Memory.read [] a = none := rfl

/-- A read after a write gives the value written, and every other offset reads as before. -/
theorem Memory.read_write (m : Memory) (a b : Nat) (v : Byte) :
    (Memory.write m a v).read b = if a = b then some v else m.read b := by
  induction m with
  | nil => simp [Memory.write, Memory.read, Memory.unlisted]
  | cons c rest ih =>
    simp only [Memory.write]
    split
    · simp [Memory.read]
    · split
      · rename_i h1 h2
        subst h2
        by_cases hb : c.1 = b <;> simp [Memory.read, hb]
      · rename_i h1 h2
        by_cases hb : c.1 = b
        · have : a ≠ b := by omega
          simp [Memory.read, hb, this]
        · simp [Memory.read, hb, ih]

/-- Reading after a run of bytes has been written. -/
theorem Memory.read_writeBytes (bs : List Byte) (m : Memory) (a b : Nat) :
    (m.writeBytes a bs).read b = if a ≤ b ∧ b < a + bs.length then bs[b - a]? else m.read b := by
  induction bs generalizing m a with
  | nil =>
    rw [if_neg (by simp only [List.length_nil]; omega)]
    rfl
  | cons v rest ih =>
    rw [Memory.writeBytes, ih, Memory.read_write, List.length_cons]
    by_cases h1 : a + 1 ≤ b ∧ b < a + 1 + rest.length
    · rw [if_pos h1, if_pos (by omega), show b - a = (b - (a + 1)) + 1 by omega, List.getElem?_cons_succ]
    · rw [if_neg h1]
      by_cases h2 : a = b
      · rw [if_pos h2, if_pos (by omega), h2, Nat.sub_self, List.getElem?_cons_zero]
      · rw [if_neg h2, if_neg (by omega)]

/-- Canonical: offsets strictly rising, as a statement about consecutive cells. -/
theorem Memory.wf_cons (c : Host.Cell) (m : Memory) :
    Memory.wf (c :: m) = true ↔ (∀ d ∈ m.head?, c.1 < d.1) ∧ Memory.wf m = true := by
  cases m <;> simp [Memory.wf]

theorem Memory.head?_write (m : Memory) (a : Nat) (v : Byte) :
    ∀ d ∈ (Memory.write m a v).head?, d.1 = a ∨ d ∈ m.head? := by
  cases m with
  | nil => simp [Memory.write]
  | cons c rest =>
    simp only [Memory.write]
    split
    · simp
    · split <;> simp

/-- A write keeps the canonical form. -/
theorem Memory.write_wf (m : Memory) (a : Nat) (v : Byte) (h : m.wf = true) : (Memory.write m a v).wf = true := by
  induction m with
  | nil => rfl
  | cons c rest ih =>
    obtain ⟨hc, hr⟩ := (Memory.wf_cons c rest).1 h
    simp only [Memory.write]
    split
    · exact (Memory.wf_cons _ _).2 ⟨by simp_all, h⟩
    · split
      · rename_i h2
        exact (Memory.wf_cons _ _).2 ⟨by simpa [h2] using hc, hr⟩
      · refine (Memory.wf_cons _ _).2 ⟨fun d hd => ?_, ih hr⟩
        rcases Memory.head?_write rest a v d hd with e | e
        · omega
        · exact hc d e

theorem Memory.writeBytes_wf (bs : List Byte) (m : Memory) (a : Nat) (h : m.wf = true) :
    (m.writeBytes a bs).wf = true := by
  induction bs generalizing m a with
  | nil => exact h
  | cons b rest ih => exact ih _ _ (Memory.write_wf m a b h)

/-- A write lists no other offset than the ones listed and its own. -/
theorem Memory.mem_write {m : Memory} {a : Nat} {v : Byte} {c : Host.Cell} (h : c ∈ Memory.write m a v) :
    c = (a, v) ∨ c ∈ m := by
  induction m with
  | nil => simpa [Memory.write] using h
  | cons d rest ih =>
    simp only [Memory.write] at h
    split at h
    · simpa using h
    · split at h
      · rcases List.mem_cons.1 h with e | e
        · exact .inl e
        · exact .inr (List.mem_cons_of_mem _ e)
      · rcases List.mem_cons.1 h with e | e
        · exact .inr (e ▸ List.mem_cons_self)
        · rcases ih e with e | e
          · exact .inl e
          · exact .inr (List.mem_cons_of_mem _ e)

/-- A run of bytes written below a bound lists no offset at or above it. -/
theorem Memory.writeBytes_bounded (bs : List Byte) (m : Memory) (a cap : Nat) (h : ∀ c ∈ m, c.1 < cap)
    (hb : bs.length = 0 ∨ a + bs.length ≤ cap) : ∀ c ∈ m.writeBytes a bs, c.1 < cap := by
  induction bs generalizing m a with
  | nil => exact h
  | cons b rest ih =>
    have hab : a + (rest.length + 1) ≤ cap := by simpa using hb
    refine ih _ _ (fun c hc => ?_) (by omega)
    rcases Memory.mem_write hc with e | e
    · subst e
      show a < cap
      omega
    · exact h c e

@[simp] theorem freeBytes_length (draw a n : Nat) : (freeBytes draw a n).length = n := by simp [freeBytes]

theorem freeBytes_getElem? (draw a n i : Nat) (h : i < n) :
    (freeBytes draw a n)[i]? = some (Config.freeByte draw (a + i)) := by simp [freeBytes, h]

/-- What `Out` reads as after its bytes from `lo` on have been made unspecified. -/
theorem State.unspecifyOut_outByte (s : State) (lo a : Nat) :
    (s.unspecifyOut lo).outByte a =
      if lo ≤ a ∧ a < s.params.outCap then some (Config.freeByte s.draws a) else s.outByte a := by
  unfold State.outByte
  simp only [State.unspecifyOut_params]
  by_cases ha : a < s.params.outCap
  · simp only [ha, if_true, and_true]
    show (s.out.writeBytes lo _).read a = _
    rw [Memory.read_writeBytes]
    by_cases hl : lo ≤ a
    · have h1 : lo ≤ a ∧ a < lo + (freeBytes s.draws lo (s.params.outCap - lo)).length := by
        simp; omega
      rw [if_pos h1, if_pos hl, freeBytes_getElem? _ _ _ _ (by omega)]
      congr 2
      omega
    · simp [hl]
  · simp [ha]

/-- What `Out` reads as after a success: the image, then free values. -/
theorem State.serializeOk_outByte (s : State) (img : List Byte) (h : img.length ≤ s.params.outCap) (a : Nat) :
    (s.serializeOk img).outByte a =
      if a < img.length then img[a]?
      else if a < s.params.outCap then some (Config.freeByte s.draws a) else none := by
  unfold State.serializeOk
  rw [State.complete_outByte, State.unspecifyOut_outByte]
  by_cases h1 : a < img.length
  · have h2 : ¬(img.length ≤ a ∧ a < s.params.outCap) := by omega
    have h3 : a < s.params.outCap := by omega
    simp [h1, State.outByte, h3, Memory.read_writeBytes]
  · by_cases h2 : a < s.params.outCap
    · simp [h1, h2, Nat.le_of_not_lt h1]
    · simp [h1, h2, State.outByte]

/-- What `Out` reads as after a failure: free values. -/
theorem State.serializeFail_outByte (s : State) (a : Nat) :
    s.serializeFail.outByte a =
      if a < s.params.outCap then some (Config.freeByte s.draws a) else none := by
  unfold State.serializeFail
  rw [State.complete_outByte, State.unspecifyOut_outByte]
  by_cases h2 : a < s.params.outCap <;> simp [h2, State.outByte]

end Sys2Proof.Machine
end

