-- ==== Sys2Proof/Laws/Ops.lean ====
section
/-! SUPPORT. What each shared operation of a meaning can answer, and what an instruction can. -/

namespace Sys2Proof.Machine

theorem guardInput_of_fits (d : List Byte) (s : State) (r : StepOutcome)
    (h : withinCap s.params.inCap d.length = true) : guardInput d s r = r := by simp [guardInput, h]

theorem guardInput_of_not_fits (d : List Byte) (s : State) (r : StepOutcome)
    (h : withinCap s.params.inCap d.length = false) : guardInput d s r = .refused (.operandTooLong d.length) := by
  simp [guardInput, h]

theorem guardValues_of_fits (n : Nat) (s : State) (r : StepOutcome)
    (h : withinCap s.params.bitsCap n = true) : guardValues n s r = r := by simp [guardValues, h]

theorem guardValues_of_not_fits (n : Nat) (s : State) (r : StepOutcome)
    (h : withinCap s.params.bitsCap n = false) : guardValues n s r = .refused (.operandTooLong n) := by
  simp [guardValues, h]

theorem guardInput_eq_next {d : List Byte} {s t : State} {r : StepOutcome} (h : guardInput d s r = .next t) :
    withinCap s.params.inCap d.length = true ∧ r = .next t := by
  unfold guardInput at h
  split at h
  · exact ⟨‹_›, h⟩
  · cases h

theorem guardValues_eq_next {n : Nat} {s t : State} {r : StepOutcome} (h : guardValues n s r = .next t) :
    withinCap s.params.bitsCap n = true ∧ r = .next t := by
  unfold guardValues at h
  split at h
  · exact ⟨‹_›, h⟩
  · cases h

/-- PARSE of a span within the limit completes with its result. -/
theorem completeParse_of_fits (d : List Byte) (r : ParseResult) (s : State)
    (h : withinCap s.params.inCap d.length = true) :
    completeParse d r s = .next (s.complete (.parsed r)) := guardInput_of_fits d s _ h

/-- The three ways SERIALIZE can end in a next state: a failure without a body, a failure without room, a success. -/
theorem finishSerialize_eq_next {h : CommandHeader} {body : Option (List Byte)} {n : Nat} {s t : State}
    (e : finishSerialize h body n s = .next t) :
    withinCap s.params.bitsCap n = true ∧
      ((body = none ∧ t = s.serializeFail) ∨
       (∃ bs, body = some bs ∧ s.params.outCap < (imageOf h bs).length ∧ t = s.serializeFail) ∨
       (∃ bs, body = some bs ∧ (imageOf h bs).length ≤ s.params.outCap ∧ t = s.serializeOk (imageOf h bs))) := by
  obtain ⟨hc, e⟩ := guardValues_eq_next e
  refine ⟨hc, ?_⟩
  cases body with
  | none => cases e; exact .inl ⟨rfl, rfl⟩
  | some bs =>
    simp only at e
    split at e
    · cases e; exact .inr (.inl ⟨bs, rfl, ‹_›, rfl⟩)
    · cases e; exact .inr (.inr ⟨bs, rfl, by omega, rfl⟩)

/-- What SERIALIZE of a body that exists answers, where the value sequence is within its limit. -/
theorem finishSerialize_some (h : CommandHeader) (bs : List Byte) (n : Nat) (s : State)
    (hc : withinCap s.params.bitsCap n = true) :
    finishSerialize h (some bs) n s =
      if (imageOf h bs).length > s.params.outCap then .next s.serializeFail
      else .next (s.serializeOk (imageOf h bs)) := guardValues_of_fits n s _ hc

/-- What SERIALIZE without a body answers, where the value sequence is within its limit. -/
theorem finishSerialize_none (h : CommandHeader) (n : Nat) (s : State)
    (hc : withinCap s.params.bitsCap n = true) : finishSerialize h none n s = .next s.serializeFail :=
  guardValues_of_fits n s _ hc

@[simp] theorem imageOf_length (h : CommandHeader) (body : List Byte) :
    (imageOf h body).length = body.length + 4 := by simp [imageOf]

theorem serializeError_eq_next {h : CommandHeader} {c : Byte} {s t : State} (e : serializeError h c s = .next t) :
    (ExceptionCode.ofByte? c).isSome = true ∧ finishSerialize h (errorBody c) 0 s = .next t := by
  unfold serializeError at e
  split at e
  · cases e
  · simp_all

/-- Whatever frame SERIALIZE renders, the end is a failure or a success with an image that fits. -/
theorem serializeFrame_eq_next {f : Frame} {s t : State} (e : serializeFrame f s = .next t) :
    t = s.serializeFail ∨ ∃ bs, (imageOf f.header bs).length ≤ s.params.outCap ∧ t = s.serializeOk (imageOf f.header bs) := by
  have key : ∀ {body n}, finishSerialize f.header body n s = .next t →
      t = s.serializeFail ∨
        ∃ bs, (imageOf f.header bs).length ≤ s.params.outCap ∧ t = s.serializeOk (imageOf f.header bs) := by
    intro body n h
    rcases (finishSerialize_eq_next h).2 with ⟨_, r⟩ | ⟨_, _, _, r⟩ | ⟨bs, _, hl, r⟩
    · exact .inl r
    · exact .inl r
    · exact .inr ⟨bs, hl, r⟩
  unfold serializeFrame at e
  split at e
  · exact key (serializeError_eq_next e).2
  all_goals exact key e

/-- Everything an instruction can do when it answers a next state: deliver a result and nothing else, or end a SERIALIZE
in failure, or in success with an image that fits. -/
theorem exec_eq_next {i : Instr} {s t : State} (e : exec i s = .next t) :
    (∃ r, t = s.complete r) ∨ t = s.serializeFail ∨
      ∃ img, img.length ≤ s.params.outCap ∧ t = s.serializeOk img := by
  have hp : ∀ {d r}, guardInput d s (.next (s.complete r)) = .next t → ∃ r, t = s.complete r := by
    intro d r h
    cases (guardInput_eq_next h).2
    exact ⟨r, rfl⟩
  have hv : ∀ {n r}, guardValues n s (.next (s.complete r)) = .next t → ∃ r, t = s.complete r := by
    intro n r h
    cases (guardValues_eq_next h).2
    exact ⟨r, rfl⟩
  have hf : ∀ {h body n}, finishSerialize h body n s = .next t →
      t = s.serializeFail ∨ ∃ img, img.length ≤ s.params.outCap ∧ t = s.serializeOk img := by
    intro h body n h'
    rcases (finishSerialize_eq_next h').2 with ⟨_, r⟩ | ⟨_, _, _, r⟩ | ⟨bs, _, hl, r⟩
    · exact .inl r
    · exact .inl r
    · exact .inr ⟨_, hl, r⟩
  have hs : ∀ {f}, serializeFrame f s = .next t →
      t = s.serializeFail ∨ ∃ img, img.length ≤ s.params.outCap ∧ t = s.serializeOk img := by
    intro f h
    rcases serializeFrame_eq_next h with r | ⟨bs, hl, r⟩
    · exact .inl r
    · exact .inr ⟨_, hl, r⟩
  cases i with
  | pack bits => exact .inl (hv e)
  | serialize f => exact .inr (hs e)
  | excresp a fc c => exact .inr (hs (f := excrespFrame a fc c) e)
  | serializeErrorPayload h c => exact .inr (hf (serializeError_eq_next e).2)
  | serializeReadCoilsResponse h vs => exact .inr (hf e)
  | serializeReadDiscreteInputsResponse h vs => exact .inr (hf e)
  | serializeReadRegistersResponse h vs => exact .inr (hf e)
  | serializeReadInputsResponse h vs => exact .inr (hf e)
  | serializeWriteCoilResponse h a v => exact .inr (hf (h := h) (body := pairBody a (coilWord v)) (n := 0) e)
  | serializeWriteRegisterResponse h a v => exact .inr (hf (h := h) (body := pairBody a v) (n := 0) e)
  | serializeWriteCoilsResponse h a n => exact .inr (hf (h := h) (body := pairBody a n) (n := 0) e)
  | serializeWriteRegistersResponse h a n => exact .inr (hf (h := h) (body := pairBody a n) (n := 0) e)
  | serializeUnrenderable f => exact .inr (hf (h := f.header) (body := none) (n := frameValueCount f) e)
  | crc16 d => exact .inl (hp e)
  | unpack d => exact .inl (hp e)
  | unpackMax d m => exact .inl (hp e)
  | parse d => exact .inl (hp e)
  | parseReadCoils a r => exact .inl (hp e)
  | parseReadDiscreteInputs a r => exact .inl (hp e)
  | parseReadHoldingRegisters a r => exact .inl (hp e)
  | parseReadInputRegisters a r => exact .inl (hp e)
  | parseWriteSingleCoil a r => exact .inl (hp e)
  | parseWriteSingleHoldingRegister a r => exact .inl (hp e)
  | parseWriteMultipleCoils a r => exact .inl (hp e)
  | parseWriteMultipleHoldingRegisters a r => exact .inl (hp e)
  | parseIllegalFunction a fc r => exact .inl (hp e)

end Sys2Proof.Machine
end

