-- ==== Sys2Proof/Laws/Parse.lean ====
section
/-! SUPPORT. What the parser can answer: its dispatch, step by step, and what each sub-parser leaves for step S4. -/

namespace Sys2Proof.Machine

@[simp] theorem parseFrame_cons_cons (slave fc : Byte) (rest : List Byte) :
    parseFrame (slave :: fc :: rest) = parseWith (subParserOf fc) (slave :: fc :: rest) := rfl

@[simp] theorem needMoreBytes_frame : needMoreBytes.frame = none := rfl
@[simp] theorem needMoreBytes_bytesRead : needMoreBytes.bytesRead = 0 := rfl
@[simp] theorem rejectWith_code (d : List Byte) (c : ExceptionCode) (n : Nat) : (rejectWith d c n).code = c := rfl
@[simp] theorem rejectWith_frame (d : List Byte) (c : ExceptionCode) (n : Nat) :
    (rejectWith d c n).frame = some { header := headerOf d, payload := none } := rfl
@[simp] theorem rejectWith_bytesRead (d : List Byte) (c : ExceptionCode) (n : Nat) :
    (rejectWith d c n).bytesRead = n := rfl

/-- Step S1 (R111). -/
theorem parseWith_of_short (sub : SubParser) (d : List Byte) (h : d.length < 4) : parseWith sub d = needMoreBytes := by
  simp [parseWith, minFrame, h]

/-- A sub-parser's immediate result is PARSE's (R123). -/
theorem parseWith_of_error (sub : SubParser) (d : List Byte) (r : ParseResult) (h : 4 ≤ d.length)
    (e : sub d = .error r) : parseWith sub d = r := by
  simp [parseWith, minFrame, Nat.not_lt.2 h, e]

/-- A sub-parser's payload goes on to step S4 (R124 to R126). -/
theorem parseWith_of_ok (sub : SubParser) (d : List Byte) (pl : Payload) (p : Nat) (h : 4 ≤ d.length)
    (e : sub d = .ok (pl, p)) : parseWith sub d = checkCrc d pl p := by
  simp [parseWith, minFrame, Nat.not_lt.2 h, e]

/-- The three outcomes of step S4. -/
theorem checkCrc_cases (d : List Byte) (pl : Payload) (p : Nat) :
    (d.length < p + 2 ∧ checkCrc d pl p = needMoreBytes) ∨
    (p + 2 ≤ d.length ∧ wordAt d p ≠ compute (memRead d 0 p) ∧
      checkCrc d pl p = rejectWith d .memoryParityError (p + 2)) ∨
    (p + 2 ≤ d.length ∧ wordAt d p = compute (memRead d 0 p) ∧
      checkCrc d pl p = { code := .noError, frame := some { header := headerOf d, payload := some pl }, bytesRead := p + 2 }) := by
  unfold checkCrc
  split
  · exact .inl ⟨‹_›, rfl⟩
  · split
    · exact .inr (.inl ⟨by omega, ‹_›, rfl⟩)
    · exact .inr (.inr ⟨by omega, not_not.1 ‹_›, rfl⟩)

/-- What a sub-parser answers, whichever function code selects it: a shortage (R122), the overrun (R118), one of the two
early rejects (R123), or a payload whose end is in the span (R114 to R120). -/
theorem subParserOf_cases (fc : Byte) (d : List Byte) :
    subParserOf fc d = .error needMoreBytes ∨
    ((fc = 0x0F ∨ fc = 0x10) ∧
      subParserOf fc d = .error { code := .illegalDataValue, frame := none, bytesRead := 0 }) ∨
    (fc = 0x05 ∧ 6 ≤ d.length ∧ subParserOf fc d = .error (rejectWith d .illegalDataValue 2)) ∨
    (FunctionCode.ofByte? fc = none ∧ subParserOf fc d = .error (rejectWith d .illegalFunction 1)) ∨
    (∃ pl p, 6 ≤ p ∧ p ≤ d.length ∧ p ≤ 262 ∧ subParserOf fc d = .ok (pl, p)) := by
  have read : ∀ mk, subRead mk d = .error needMoreBytes ∨
      ∃ pl p, 6 ≤ p ∧ p ≤ d.length ∧ p ≤ 262 ∧ subRead mk d = .ok (pl, p) := by
    intro mk
    unfold subRead
    split
    · exact .inl rfl
    · exact .inr ⟨_, _, by omega, by omega, by omega, rfl⟩
  have many : ∀ mk, subWriteMultiple mk d = .error needMoreBytes ∨
      subWriteMultiple mk d = .error { code := .illegalDataValue, frame := none, bytesRead := 0 } ∨
      ∃ pl p, 6 ≤ p ∧ p ≤ d.length ∧ p ≤ 262 ∧ subWriteMultiple mk d = .ok (pl, p) := by
    intro mk
    unfold subWriteMultiple
    split
    · exact .inl rfl
    · simp only
      split
      · exact .inr (.inl rfl)
      · have := (byteAt d 6).isLt
        exact .inr (.inr ⟨_, _, by omega, by omega, by omega, rfl⟩)
  cases hc : FunctionCode.ofByte? fc with
  | none => exact .inr (.inr (.inr (.inl ⟨rfl, by simp [subParserOf, hc, subIllegalFunction]⟩)))
  | some c =>
    have hb := (FunctionCode.ofByte?_eq_some fc c).1 hc
    cases c with
    | readCoils =>
      simp only [subParserOf, hc]
      exact (read _).imp_right fun h => .inr (.inr (.inr h))
    | readDiscreteInputs =>
      simp only [subParserOf, hc]
      exact (read _).imp_right fun h => .inr (.inr (.inr h))
    | readHoldingRegisters =>
      simp only [subParserOf, hc]
      exact (read _).imp_right fun h => .inr (.inr (.inr h))
    | readInputRegisters =>
      simp only [subParserOf, hc]
      exact (read _).imp_right fun h => .inr (.inr (.inr h))
    | writeSingleCoil =>
      simp only [subParserOf, hc]
      unfold subWriteCoil
      split
      · exact .inl rfl
      · split
        · exact .inr (.inr (.inr (.inr ⟨_, _, by omega, by omega, by omega, rfl⟩)))
        · split
          · exact .inr (.inr (.inr (.inr ⟨_, _, by omega, by omega, by omega, rfl⟩)))
          · exact .inr (.inr (.inl ⟨hb.symm, by omega, rfl⟩))
    | writeSingleHoldingRegister =>
      simp only [subParserOf, hc]
      unfold subWriteRegister
      split
      · exact .inl rfl
      · exact .inr (.inr (.inr (.inr ⟨_, _, by omega, by omega, by omega, rfl⟩)))
    | writeMultipleCoils =>
      simp only [subParserOf, hc]
      rcases many coilsPayload with h | h | h
      · exact .inl h
      · exact .inr (.inl ⟨.inl hb.symm, h⟩)
      · exact .inr (.inr (.inr (.inr h)))
    | writeMultipleHoldingRegisters =>
      simp only [subParserOf, hc]
      rcases many registersPayload with h | h | h
      · exact .inl h
      · exact .inr (.inl ⟨.inr hb.symm, h⟩)
      · exact .inr (.inr (.inr (.inr h)))

end Sys2Proof.Machine
end

