-- ==== Sys2Proof/Laws/PerInstr.lean ====
section
/-! SUPPORT. Family WordsAgree: a well-formed instruction and the command it is a row of come from words that name one
command: expanding the instruction's word gives a word of that command. One lemma for each constructor. -/

namespace Sys2Proof.Laws

/-- Expanding the word of a well-formed instruction to format CMD (R78, R87) gives the word of its command. -/
def WordsAgree.Statement (i : Instr) : Prop := i.wf = true → (encode i).expand = encode i.toCommand

theorem WordsAgree.crc16 (input : List Byte) : WordsAgree.Statement (.crc16 input) := fun _ => rfl
theorem WordsAgree.pack (bits : List Bool) : WordsAgree.Statement (.pack bits) := fun _ => rfl
theorem WordsAgree.unpack (input : List Byte) : WordsAgree.Statement (.unpack input) := fun _ => rfl
theorem WordsAgree.unpackMax (input : List Byte) (m : Word) : WordsAgree.Statement (.unpackMax input m) := fun _ => rfl
theorem WordsAgree.parse (input : List Byte) : WordsAgree.Statement (.parse input) := fun _ => rfl
theorem WordsAgree.serialize (f : Frame) : WordsAgree.Statement (.serialize f) := fun _ => rfl
theorem WordsAgree.excresp (a fc c : Byte) : WordsAgree.Statement (.excresp a fc c) := fun _ => rfl
theorem WordsAgree.parseReadCoils (a : Byte) (r : List Byte) : WordsAgree.Statement (.parseReadCoils a r) := fun _ => rfl
theorem WordsAgree.parseReadDiscreteInputs (a : Byte) (r : List Byte) :
    WordsAgree.Statement (.parseReadDiscreteInputs a r) := fun _ => rfl
theorem WordsAgree.parseReadHoldingRegisters (a : Byte) (r : List Byte) :
    WordsAgree.Statement (.parseReadHoldingRegisters a r) := fun _ => rfl
theorem WordsAgree.parseReadInputRegisters (a : Byte) (r : List Byte) :
    WordsAgree.Statement (.parseReadInputRegisters a r) := fun _ => rfl
theorem WordsAgree.parseWriteSingleCoil (a : Byte) (r : List Byte) :
    WordsAgree.Statement (.parseWriteSingleCoil a r) := fun _ => rfl
theorem WordsAgree.parseWriteSingleHoldingRegister (a : Byte) (r : List Byte) :
    WordsAgree.Statement (.parseWriteSingleHoldingRegister a r) := fun _ => rfl
theorem WordsAgree.parseWriteMultipleCoils (a : Byte) (r : List Byte) :
    WordsAgree.Statement (.parseWriteMultipleCoils a r) := fun _ => rfl
theorem WordsAgree.parseWriteMultipleHoldingRegisters (a : Byte) (r : List Byte) :
    WordsAgree.Statement (.parseWriteMultipleHoldingRegisters a r) := fun _ => rfl
theorem WordsAgree.parseIllegalFunction (a fc : Byte) (r : List Byte) :
    WordsAgree.Statement (.parseIllegalFunction a fc r) := fun _ => rfl
theorem WordsAgree.serializeErrorPayload (h : CommandHeader) (c : Byte) :
    WordsAgree.Statement (.serializeErrorPayload h c) := fun _ => rfl
theorem WordsAgree.serializeReadCoilsResponse (h : CommandHeader) (vs : List Bool) :
    WordsAgree.Statement (.serializeReadCoilsResponse h vs) := fun _ => rfl
theorem WordsAgree.serializeReadDiscreteInputsResponse (h : CommandHeader) (vs : List Bool) :
    WordsAgree.Statement (.serializeReadDiscreteInputsResponse h vs) := fun _ => rfl
theorem WordsAgree.serializeReadRegistersResponse (h : CommandHeader) (vs : List Word) :
    WordsAgree.Statement (.serializeReadRegistersResponse h vs) := fun _ => rfl
theorem WordsAgree.serializeReadInputsResponse (h : CommandHeader) (vs : List Word) :
    WordsAgree.Statement (.serializeReadInputsResponse h vs) := fun _ => rfl
theorem WordsAgree.serializeWriteCoilResponse (h : CommandHeader) (a : Word) (v : Bool) :
    WordsAgree.Statement (.serializeWriteCoilResponse h a v) := fun _ => rfl
theorem WordsAgree.serializeWriteRegisterResponse (h : CommandHeader) (a v : Word) :
    WordsAgree.Statement (.serializeWriteRegisterResponse h a v) := fun _ => rfl
theorem WordsAgree.serializeWriteCoilsResponse (h : CommandHeader) (a n : Word) :
    WordsAgree.Statement (.serializeWriteCoilsResponse h a n) := fun _ => rfl
theorem WordsAgree.serializeWriteRegistersResponse (h : CommandHeader) (a n : Word) :
    WordsAgree.Statement (.serializeWriteRegistersResponse h a n) := fun _ => rfl
theorem WordsAgree.serializeUnrenderable (f : Frame) : WordsAgree.Statement (.serializeUnrenderable f) := fun _ => rfl

end Sys2Proof.Laws
end

