-- ==== Sys2Proof/Laws/Serialize.lean ====
section
/-! SUPPORT. SERIALIZE of any accepted frame as one call of its shared end, and the lengths of the bodies. -/

namespace Sys2Proof.Machine

/-- The body of a frame's layout (R142 to R147); none where rule R140 fails. -/
def bodyOf (f : Frame) : Option (List Byte) :=
  match f.payload with
  | some (.errorPayload c) => errorBody c
  | some (.readCoilsResponse vs) => bitsBody vs
  | some (.readDiscreteInputsResponse vs) => bitsBody vs
  | some (.readRegistersResponse vs) => registersBody vs
  | some (.readInputsResponse vs) => registersBody vs
  | some (.writeCoilResponse a v) => pairBody a (coilWord v)
  | some (.writeRegisterResponse a v) => pairBody a v
  | some (.writeCoilsResponse a n) => pairBody a n
  | some (.writeRegistersResponse a n) => pairBody a n
  | _ => none

@[simp] theorem withinCap_zero (cap : Option Nat) : withinCap cap 0 = true := by cases cap <;> simp [withinCap]

/-- Where an ErrorPayload's byte is an ExceptionCode, SERIALIZE is its shared end on the frame's body. -/
theorem serializeFrame_eq_finish (f : Frame) (s : State)
    (h : ∀ c, f.payload = some (.errorPayload c) → (ExceptionCode.ofByte? c).isSome = true) :
    serializeFrame f s = finishSerialize f.header (bodyOf f) (frameValueCount f) s := by
  obtain ⟨hd, p⟩ := f
  rcases p with _ | p
  · rfl
  · cases p with
    | errorPayload c =>
      obtain ⟨x, hx⟩ := Option.isSome_iff_exists.1 (h c rfl)
      show serializeError hd c s = _
      simp only [serializeError, hx]
      rfl
    | _ => rfl

/-- The frame SERIALIZE answers a next state for has a legal code, if it has one. -/
theorem serializeFrame_next_member {f : Frame} {s t : State} (e : serializeFrame f s = .next t) :
    ∀ c, f.payload = some (.errorPayload c) → (ExceptionCode.ofByte? c).isSome = true := by
  intro c hc
  obtain ⟨hd, p⟩ := f
  subst hc
  exact (serializeError_eq_next (h := hd) (c := c) e).1

theorem frameAccepted_iff (p : Params) (f : Frame) :
    frameAccepted p f = true ↔ withinCap p.bitsCap (frameValueCount f) = true ∧
      ∀ c, f.payload = some (.errorPayload c) → (ExceptionCode.ofByte? c).isSome = true := by
  obtain ⟨hd, q⟩ := f
  rcases q with _ | q
  · simp [frameAccepted]
  · cases q <;> simp [frameAccepted]

/-- SERIALIZE of an accepted frame. -/
theorem serializeFrame_of_accepted (f : Frame) (s : State) (h : frameAccepted s.params f = true) :
    serializeFrame f s =
      match bodyOf f with
      | none => .next s.serializeFail
      | some bs =>
        if (imageOf f.header bs).length > s.params.outCap then .next s.serializeFail
        else .next (s.serializeOk (imageOf f.header bs)) := by
  obtain ⟨hc, hm⟩ := (frameAccepted_iff _ _).1 h
  rw [serializeFrame_eq_finish f s hm]
  exact guardValues_of_fits _ _ _ hc

theorem flatMap_wordBytes_length (vs : List Word) : (vs.flatMap wordBytes).length = 2 * vs.length := by
  induction vs with
  | nil => rfl
  | cons v vs ih =>
    rw [List.flatMap_cons, List.length_append, ih, wordBytes_length, List.length_cons]
    omega

end Sys2Proof.Machine
end

