-- ==== Sys2Proof/Laws/Statements.lean ====
section
/-! SUPPORT. The words of the statements in terms of the model's functions: what PARSE returns is what the parser returns,
and a successful or failed SERIALIZE is its shared end. -/

namespace Sys2Proof.Machine

/-- PARSE returns exactly the parser's result. -/
theorem parsesTo_iff (d : List Byte) (r : ParseResult) : ParsesTo d r ↔ parseFrame d = r := by
  constructor
  · intro h
    have := h State.reset rfl
    rw [show exec (.parse d) State.reset = .next (State.reset.complete (.parsed (parseFrame d))) from
      guardInput_of_fits d State.reset (.next (State.reset.complete (.parsed (parseFrame d)))) rfl] at this
    simpa [State.complete] using this
  · rintro rfl s hs
    exact guardInput_of_fits d s (.next (s.complete (.parsed (parseFrame d)))) hs

/-- A success with an image that fits renders it. -/
theorem renders_of_ok {i : Instr} {s : State} {img : List Byte} (hl : img.length ≤ s.params.outCap)
    (e : exec i s = .next (s.serializeOk img)) : Renders i img s := by
  refine ⟨_, e, rfl, fun a ha => ?_, fun a h1 h2 => ?_, rfl, rfl, rfl, rfl⟩
  · rw [State.serializeOk_outByte s img hl, if_pos ha]
  · rw [State.serializeOk_outByte s img hl, if_neg (by omega), if_pos h2]

/-- A failure fails to render. -/
theorem failsToRender_of_fail {i : Instr} {s : State} (e : exec i s = .next s.serializeFail) : FailsToRender i s :=
  ⟨_, e, rfl, fun a ha => by rw [State.serializeFail_outByte, if_pos ha], rfl, rfl, rfl, rfl⟩

/-- The shared end of SERIALIZE on a body whose image fits. -/
theorem renders_of_finish {i : Instr} {s : State} {h : CommandHeader} {bs : List Byte} {n : Nat}
    (e : exec i s = finishSerialize h (some bs) n s) (hc : withinCap s.params.bitsCap n = true)
    (hl : (imageOf h bs).length ≤ s.params.outCap) : Renders i (imageOf h bs) s :=
  renders_of_ok hl (by rw [e, finishSerialize_some _ _ _ _ hc, if_neg (by omega)])

end Sys2Proof.Machine
end

