-- ==== Sys2Proof/Laws/Stream.lean ====
section
/-! SUPPORT. The small steps of the inside of a command: what a byte does to the working state, and what a reader finds. -/

namespace Sys2Proof.Machine

@[simp] theorem crcByte_crc (w : WorkingState) (b : Byte) : (crcByte w b).crc = crcUpdate w.crc b := rfl
@[simp] theorem crcByte_parseOffset (w : WorkingState) (b : Byte) : (crcByte w b).parseOffset = w.parseOffset := rfl
@[simp] theorem crcByte_payloadEnd (w : WorkingState) (b : Byte) : (crcByte w b).payloadEnd = w.payloadEnd := rfl
@[simp] theorem crcByte_writeOffset (w : WorkingState) (b : Byte) : (crcByte w b).writeOffset = w.writeOffset := rfl
@[simp] theorem crcByte_countOffset (w : WorkingState) (b : Byte) : (crcByte w b).countOffset = w.countOffset := rfl

/-- Everything `nextByte` can answer. -/
theorem nextByte_eq (input : List Byte) (w : WorkingState) :
    nextByte input w = if w.parseOffset < input.length then
      some (byteAt input w.parseOffset, { w with parseOffset := w.parseOffset + 1 }) else none := rfl

/-- A byte that is there is read and goes through the accumulator. -/
theorem readByte_of_lt {input : List Byte} {w : WorkingState} (h : w.parseOffset < input.length) :
    readByte input w = some (byteAt input w.parseOffset,
      { w with crc := crcUpdate w.crc (byteAt input w.parseOffset), parseOffset := w.parseOffset + 1 }) := by
  simp [readByte, nextByte, h, crcByte]

/-- At the end of the span nothing is read. -/
theorem readByte_of_ge {input : List Byte} {w : WorkingState} (h : input.length ≤ w.parseOffset) :
    readByte input w = none := by
  simp [readByte, nextByte, Nat.not_lt.2 h]

/-- The CRC field, where both bytes are there; the accumulator stays. -/
theorem readCrc_of_le {input : List Byte} {w : WorkingState} (h : w.parseOffset + 2 ≤ input.length) :
    readCrc input w = some (wordAt input w.parseOffset, { w with parseOffset := w.parseOffset + 2 }) := by
  simp [readCrc, nextByte, wordAt, show w.parseOffset < input.length by omega,
    show w.parseOffset + 1 < input.length by omega]

/-- The CRC field, where a byte of it is missing. -/
theorem readCrc_of_gt {input : List Byte} {w : WorkingState} (h : input.length < w.parseOffset + 2) :
    readCrc input w = none := by
  by_cases h1 : w.parseOffset < input.length
  · simp [readCrc, nextByte, h1, show ¬ w.parseOffset + 1 < input.length by omega]
  · simp [readCrc, nextByte, h1]

end Sys2Proof.Machine
end

