-- ==== Sys2Proof/Tests/Slice0.lean ====
section
/-! SUPPORT. The implementer's own tests: words written out from the spec's encodings, ill-formed terms, one step of each
instruction with the expected values of 95_test_vectors.md, and for every statement with hypotheses a witness that meets
them. -/

namespace Sys2Proof.Machine.Tests

open Sys2Proof

-- One theorem after another: run side by side, the many small tests below wait for each other in too many threads.
set_option Elab.async false

/-! ## Decoding: words from 30_encoding.md R75, R76, R78, R87 -/

/-- A frame port with this header and this tag. -/
def port (tag : Byte) : FramePort := { slaveAddress := 0x11, command := 0x03, tag := tag }

/-- The header of those frame ports. -/
def hdr : CommandHeader := { slaveAddress := 0x11, command := 0x03 }

theorem test_decode_commands :
    decode (.command 0x01 { input := [0x31] }) = .ok (.crc16 [0x31]) ∧
    decode (.command 0x02 { bits := [true, false] }) = .ok (.pack [true, false]) ∧
    decode (.command 0x03 { input := [0xCD] }) = .ok (.unpack [0xCD]) ∧
    decode (.command 0x04 { input := [0xCD], maxCount := 10 }) = .ok (.unpackMax [0xCD] 10) ∧
    decode (.command 0x05 { input := [0x01, 0x03] }) = .ok (.parse [0x01, 0x03]) ∧
    decode (.command 0x06 { frame := port 0 }) = .ok (.serialize ⟨hdr, none⟩) ∧
    decode (.pseudo 0x01 0x03 0x02) = .ok (.excresp 0x01 0x03 0x02) := by decide +kernel

theorem test_decode_parse_rows :
    decode (.request [0x11, 0x01, 0xAA]) = .ok (.parseReadCoils 0x11 [0xAA]) ∧
    decode (.request [0x11, 0x02, 0xAA]) = .ok (.parseReadDiscreteInputs 0x11 [0xAA]) ∧
    decode (.request [0x11, 0x03, 0xAA]) = .ok (.parseReadHoldingRegisters 0x11 [0xAA]) ∧
    decode (.request [0x11, 0x04, 0xAA]) = .ok (.parseReadInputRegisters 0x11 [0xAA]) ∧
    decode (.request [0x11, 0x05, 0xAA]) = .ok (.parseWriteSingleCoil 0x11 [0xAA]) ∧
    decode (.request [0x11, 0x06, 0xAA]) = .ok (.parseWriteSingleHoldingRegister 0x11 [0xAA]) ∧
    decode (.request [0x11, 0x0F, 0xAA]) = .ok (.parseWriteMultipleCoils 0x11 [0xAA]) ∧
    decode (.request [0x11, 0x10, 0xAA]) = .ok (.parseWriteMultipleHoldingRegisters 0x11 [0xAA]) ∧
    decode (.request [0x11, 0x83, 0xAA]) = .ok (.parseIllegalFunction 0x11 0x83 [0xAA]) := by decide +kernel

theorem test_decode_serialize_rows :
    decode (.response { port 17 with errorCode := 2 }) = .ok (.serializeErrorPayload hdr 2) ∧
    decode (.response { port 5 with bitValues := [true] }) = .ok (.serializeReadCoilsResponse hdr [true]) ∧
    decode (.response { port 6 with bitValues := [true] }) = .ok (.serializeReadDiscreteInputsResponse hdr [true]) ∧
    decode (.response { port 7 with wordValues := [1] }) = .ok (.serializeReadRegistersResponse hdr [1]) ∧
    decode (.response { port 8 with wordValues := [1] }) = .ok (.serializeReadInputsResponse hdr [1]) ∧
    decode (.response { port 10 with word0 := 0xAC, flag := true }) = .ok (.serializeWriteCoilResponse hdr 0xAC true) ∧
    decode (.response { port 12 with word0 := 1, word1 := 3 }) = .ok (.serializeWriteRegisterResponse hdr 1 3) ∧
    decode (.response { port 14 with word0 := 1, word1 := 3 }) = .ok (.serializeWriteCoilsResponse hdr 1 3) ∧
    decode (.response { port 16 with word0 := 1, word1 := 3 }) = .ok (.serializeWriteRegistersResponse hdr 1 3) ∧
    decode (.response { port 9 with word0 := 1, flag := true }) =
      .ok (.serializeUnrenderable ⟨hdr, some (.writeCoilRequest 1 true)⟩) := by decide +kernel

theorem test_decode_rejects :
    decode (.command 0x00 {}) = .error (.illegalOpcode 0x00) ∧ decode (.command 0x07 {}) = .error (.illegalOpcode 0x07) ∧
    decode (.command 0xFF {}) = .error (.illegalOpcode 0xFF) ∧
    decode (.command 0x06 { frame := port 18 }) = .error (.illegalPayloadTag 18) ∧
    decode (.response (port 18)) = .error (.illegalPayloadTag 18) ∧ decode (.request [0x11]) = .error .noFunctionCode := by
  decide +kernel

theorem test_decodeTableWord :
    decodeTableWord 8 0x01 = some (.crc16 []) ∧ decodeTableWord 8 0x05 = some (.parse []) ∧
    decodeTableWord 8 0x06 = some (.serialize ⟨⟨0, 0⟩, none⟩) ∧ decodeTableWord 8 0x07 = none ∧
    decodeTableWord 16 0x0311 = some (.parseReadHoldingRegisters 0x11 (List.replicate 262 0)) := by decide +kernel

/-! ## WellFormed -/

theorem test_wf_refuses_known_function_code : (Instr.parseIllegalFunction 0x11 0x10 []).wf = false := by decide +kernel

theorem test_wf_refuses_renderable_frame :
    (Instr.serializeUnrenderable ⟨hdr, some (.errorPayload 2)⟩).wf = false ∧
    (Instr.serializeUnrenderable ⟨hdr, some (.readCoilsResponse [])⟩).wf = false := by decide +kernel

/-! ## One step of each instruction -/

/-- The idle block, with a small buffer, when the host has issued `w` and waits. -/
def issued (w : PortWord) : State :=
  { State.reset with params := { outCap := 9, inCap := none, bitsCap := none }, host := [.issue w .quiet] }

/-- The result a step delivers. -/
def resultOf (o : StepOutcome) : Option Result :=
  match o with
  | .next t => t.result
  | .fault _ => none
  | .refused _ => none

/-- A step that delivers a result has a next state. -/
theorem next_of_result {o : StepOutcome} {r : Result} (h : resultOf o = some r) :
    ∃ t, o = .next t ∧ t.result = some r := by
  cases o with
  | next t => exact ⟨t, rfl, h⟩
  | fault f => cases h
  | refused f => cases h

/-- The result a step delivers and the first `n` bytes of `Out` after it. -/
def rendered (n : Nat) (o : StepOutcome) : Option (Option Result × List (Option Byte)) :=
  match o with
  | .next t => some (t.result, (List.range n).map t.outByte)
  | .fault _ => none
  | .refused _ => none

/-- What a success with this image leaves. -/
def success (img : List Byte) : Option (Option Result × List (Option Byte)) :=
  some (some (.serialized true img.length), img.map some)

/-- 95_test_vectors.md, 2.1. -/
theorem test_crc16 :
    resultOf (step (issued (.command 0x01 { input := [0x01, 0x03, 0x00, 0x00, 0x00, 0x01] }))) = some (.crc 0x840A) ∧
    resultOf (step (issued (.command 0x01 { input := [0x31, 0x32, 0x33, 0x34, 0x35, 0x36, 0x37, 0x38, 0x39] }))) =
      some (.crc 0x374B) := by decide +kernel

/-- 95_test_vectors.md, 2.2. -/
theorem test_pack :
    resultOf (step (issued (.command 0x02
      { bits := [true, false, true, true, false, false, true, true, true, false] }))) = some (.bytes [0xCD, 0x01]) ∧
    resultOf (step (issued (.command 0x02 { bits := List.replicate 7 false ++ [true] }))) = some (.bytes [0x80]) := by
  decide +kernel

/-- 95_test_vectors.md, 2.2. -/
theorem test_unpack :
    resultOf (step (issued (.command 0x03 { input := [0x80] }))) = some (.bits (List.replicate 7 false ++ [true])) ∧
    resultOf (step (issued (.command 0x04 { input := [0xCD, 0x01], maxCount := 10 }))) =
      some (.bits [true, false, true, true, false, false, true, true, true, false]) ∧
    resultOf (step (issued (.command 0x04 { input := [0x01], maxCount := 20 }))) =
      some (.bits [true, false, false, false, false, false, false, false]) := by decide +kernel

/-- The result of PARSE of a span, issued as a request word. -/
def parsed (d : List Byte) : Option Result := resultOf (step (issued (.request d)))

/-- A PARSE result on the result port. -/
def triple (c : ExceptionCode) (f : Option Frame) (n : Nat) : Option Result := some (.parsed ⟨c, f, n⟩)

/-- 95_test_vectors.md, 2.3. -/
theorem test_parse_reads :
    parsed [0x11, 0x01, 0x00, 0x13, 0x00, 0x25, 0x0E, 0x84] =
      triple .noError (some ⟨⟨0x11, 0x01⟩, some (.readCoilsRequest 0x0013 0x0025)⟩) 8 ∧
    parsed [0x11, 0x02, 0x00, 0xC4, 0x00, 0x16, 0xBA, 0xA9] =
      triple .noError (some ⟨⟨0x11, 0x02⟩, some (.readDiscreteInputsRequest 0x00C4 0x0016)⟩) 8 ∧
    parsed [0xC0, 0x03, 0x4E, 0x20, 0x00, 0x01, 0x82, 0x39] =
      triple .noError (some ⟨⟨0xC0, 0x03⟩, some (.readRegistersRequest 0x4E20 0x0001)⟩) 8 ∧
    parsed [0x11, 0x04, 0x00, 0x08, 0x00, 0x01, 0xB2, 0x98] =
      triple .noError (some ⟨⟨0x11, 0x04⟩, some (.readInputsRequest 0x0008 0x0001)⟩) 8 ∧
    parsed [0x01, 0x03, 0x00, 0x00, 0x00, 0x01, 0x0A, 0x84] = triple .memoryParityError (some ⟨⟨0x01, 0x03⟩, none⟩) 8 ∧
    parsed [0x01, 0x03, 0x00, 0x00, 0x00, 0x01, 0x84] = triple .slaveDeviceFailure none 0 := by decide +kernel

/-- 95_test_vectors.md, 2.3. -/
theorem test_parse_write_single :
    parsed [0x11, 0x05, 0x00, 0xAC, 0xFF, 0x00, 0x4E, 0x8B] =
      triple .noError (some ⟨⟨0x11, 0x05⟩, some (.writeCoilRequest 0x00AC true)⟩) 8 ∧
    parsed [0x11, 0x05, 0x00, 0xAC, 0x00, 0x00, 0x0F, 0x7B] =
      triple .noError (some ⟨⟨0x11, 0x05⟩, some (.writeCoilRequest 0x00AC false)⟩) 8 ∧
    parsed [0x11, 0x05, 0x00, 0xAC, 0x12, 0x34] = triple .illegalDataValue (some ⟨⟨0x11, 0x05⟩, none⟩) 2 ∧
    parsed [0x11, 0x06, 0x00, 0x01, 0x12, 0x34, 0xD7, 0xED] =
      triple .noError (some ⟨⟨0x11, 0x06⟩, some (.writeRegisterRequest 0x0001 0x1234)⟩) 8 := by decide +kernel

/-- 95_test_vectors.md, 2.3. -/
theorem test_parse_write_multiple :
    parsed [0x11, 0x0F, 0x00, 0x13, 0x00, 0x0A, 0x02, 0xCD, 0x01, 0xBF, 0x0B] =
      triple .noError (some ⟨⟨0x11, 0x0F⟩, some (.writeCoilsRequest 0x0013
        [true, false, true, true, false, false, true, true, true, false])⟩) 11 ∧
    parsed [0x11, 0x0F, 0x00, 0x13, 0x00, 0x0A, 0x02, 0xCD] = triple .illegalDataValue none 0 ∧
    parsed [0x11, 0x10, 0x00, 0x01, 0x00, 0x01, 0x03, 0x12, 0x34, 0x56, 0xF6, 0x28] =
      triple .noError (some ⟨⟨0x11, 0x10⟩, some (.writeRegistersRequest 0x0001 [0x1234])⟩) 12 ∧
    parsed [0x11, 0x10, 0x00, 0x01, 0x00, 0x02, 0x04, 0x00, 0x0A, 0x01, 0x02, 0xC6, 0xF0] =
      triple .noError (some ⟨⟨0x11, 0x10⟩, some (.writeRegistersRequest 0x0001 [0x000A, 0x0102])⟩) 13 := by
  decide +kernel

/-- 95_test_vectors.md, 2.3. -/
theorem test_parse_illegal_function :
    parsed [0x01, 0x83, 0x02, 0xC0, 0xF1] = triple .illegalFunction (some ⟨⟨0x01, 0x83⟩, none⟩) 1 ∧
    parsed [0x01, 0x99, 0x00] = triple .slaveDeviceFailure none 0 ∧
    resultOf (step (issued (.command 0x05 { input := [0x01, 0x99, 0x00, 0x00] }))) =
      triple .illegalFunction (some ⟨⟨0x01, 0x99⟩, none⟩) 1 := by decide +kernel

/-- 95_test_vectors.md, 2.5, in a buffer of 9 bytes. -/
theorem test_serialize_errors :
    rendered 5 (step (issued (.pseudo 0x01 0x03 0x02))) = success [0x01, 0x83, 0x02, 0xC0, 0xF1] ∧
    rendered 5 (step (issued (.response
      { slaveAddress := 0x01, command := 0x03, tag := 17, errorCode := 0x04 }))) = success [0x01, 0x03, 0x04, 0x21, 0x33] := by
  decide +kernel

/-- 95_test_vectors.md, 2.5. -/
theorem test_serialize_reads :
    rendered 7 (step (issued (.response
      { slaveAddress := 0x11, command := 0x01, tag := 5
        bitValues := [true, false, true, true, false, false, true, true, true, false] }))) =
      success [0x11, 0x01, 0x02, 0xCD, 0x01, 0xED, 0x6F] ∧
    rendered 5 (step (issued (.response { slaveAddress := 0x11, command := 0x02, tag := 6 }))) =
      success [0x11, 0x02, 0x00, 0x20, 0xA5] ∧
    rendered 7 (step (issued (.response { slaveAddress := 0xC0, command := 0x03, tag := 7, wordValues := [0x0001] }))) =
      success [0xC0, 0x03, 0x02, 0x00, 0x01, 0x44, 0x55] ∧
    rendered 9 (step (issued (.response
      { slaveAddress := 0x11, command := 0x04, tag := 8, wordValues := [0x000A, 0xFFFF] }))) =
      success [0x11, 0x04, 0x04, 0x00, 0x0A, 0xFF, 0xFF, 0xCB, 0xF7] := by decide +kernel

/-- 95_test_vectors.md, 2.5. -/
theorem test_serialize_writes :
    rendered 8 (step (issued (.response { slaveAddress := 0x11, command := 0x05, tag := 10, word0 := 0x00AC, flag := true }))) =
      success [0x11, 0x05, 0x00, 0xAC, 0xFF, 0x00, 0x4E, 0x8B] ∧
    rendered 8 (step (issued (.response { slaveAddress := 0x11, command := 0x06, tag := 12, word0 := 0x0001, word1 := 0x0003 }))) =
      success [0x11, 0x06, 0x00, 0x01, 0x00, 0x03, 0x9A, 0x9B] ∧
    rendered 8 (step (issued (.response { slaveAddress := 0x11, command := 0x0F, tag := 14, word0 := 0x0013, word1 := 0x000A }))) =
      success [0x11, 0x0F, 0x00, 0x13, 0x00, 0x0A, 0x26, 0x99] ∧
    rendered 8 (step (issued (.response { slaveAddress := 0x11, command := 0x10, tag := 16, word0 := 0x0001, word1 := 0x0002 }))) =
      success [0x11, 0x10, 0x00, 0x01, 0x00, 0x02, 0x12, 0x98] := by decide +kernel

/-- 95_test_vectors.md, 2.5: a request variant fails, as a command and as a row; so does an image of 9 bytes in 8. -/
theorem test_serialize_fails :
    resultOf (step (issued (.command 0x06 { frame := { port 9 with word0 := 0x00AC, flag := true } }))) =
      some (.serialized false 0) ∧
    resultOf (step (issued (.response { port 9 with word0 := 0x00AC, flag := true }))) = some (.serialized false 0) ∧
    resultOf (step (issued (.response { port 8 with wordValues := [1, 2, 3] }))) = some (.serialized false 0) := by
  decide +kernel

/-- 95_test_vectors.md, 2.5: the code byte 09 gets no result. -/
theorem test_serialize_refuses :
    resultOf (step (issued (.response { port 17 with errorCode := 9 }))) = none ∧
    resultOf (step (issued (.command 0x06 { frame := { port 17 with errorCode := 9 } }))) = none ∧
    resultOf (step (issued (.pseudo 0x01 0x03 0x09))) = none := by decide +kernel

/-! ## The laws of LAWS.json's family, on one row -/

theorem test_words_agree : (encode (.parseWriteSingleCoil 0x11 [0xAA])).expand = .command 0x05 { input := [0x11, 0x05, 0xAA] } :=
  Laws.WordsAgree.parseWriteSingleCoil 0x11 [0xAA] rfl

/-! ## Witnesses: for every statement with hypotheses, a state and operands that meet them -/

/-- The end-to-end scenario's request, an Ok frame of 8 bytes. -/
def okFrame : List Byte := [0xC0, 0x03, 0x4E, 0x20, 0x00, 0x01, 0x82, 0x39]

theorem okFrame_parses : ParsesTo okFrame ⟨.noError, some ⟨⟨0xC0, 0x03⟩, some (.readRegistersRequest 0x4E20 1)⟩, 8⟩ :=
  (parsesTo_iff _ _).2 (by decide +kernel)

/-- A SERIALIZE that the host has issued in a quiet run. -/
def busy : State := issued (.response { port 12 with word0 := 1, word1 := 3 })

theorem busy_completes : ∃ t, step busy = .next t ∧ t.result = some (.serialized true 8) :=
  next_of_result (by decide +kernel)

theorem witness_EveryStepKeepsInvariant : busy.inv = true ∧ ∃ t, step busy = .next t :=
  ⟨by decide +kernel, busy_completes.imp fun _ h => h.1⟩

theorem witness_EveryStepTakesOneInteraction : (∃ t, step busy = .next t) ∧ (∃ t, step State.reset = .next t) :=
  ⟨busy_completes.imp fun _ h => h.1, State.reset, rfl⟩

theorem witness_StepRunsDecodedInstruction :
    busy.host = .issue (.response { port 12 with word0 := 1, word1 := 3 }) .quiet :: [] ∧
    decode (.response { port 12 with word0 := 1, word1 := 3 }) = .ok (.serializeWriteRegisterResponse hdr 1 3) ∧
    decodeTableWord 8 0x02 = some (.pack []) := by decide +kernel

theorem witness_AcceptedCommandsComplete :
    (Instr.excresp 0x01 0x03 0x0B).wf = true ∧ accepted State.reset.params (.excresp 0x01 0x03 0x0B) = true ∧
    (Instr.excresp 0x01 0x03 0x0C).wf = true ∧ accepted State.reset.params (.excresp 0x01 0x03 0x0C) = false := by decide +kernel

theorem witness_DutifulHostNeverStops :
    busy.dutiful = true ∧
    { busy with host := [.reset, .issue (.request okFrame) .reset, .writeOut 8 0xFF, .issue (.request okFrame) .quiet] }.dutiful =
      true := by decide +kernel

/-- The first opcodes below and above the legal ones, the first bytes of the two gaps in ExceptionCode, lengths one above
their limits, and a second command. -/
theorem witness_CommandsWithoutMeaningAreRefused :
    ((0x00 : Byte).toNat = 0 ∧ 7 ≤ (0x07 : Byte).toNat ∧ 7 ≤ (0xFF : Byte).toNat) ∧
    ((0x09 : Byte) = 0x09 ∧ 0x0C ≤ (0x0C : Byte).toNat ∧ 0x0C ≤ (0xFF : Byte).toNat) ∧
    withinCap (some 7) okFrame.length = false ∧ withinCap (some 1) [true, true].length = false ∧
    withinCap (some 1) (frameValueCount ⟨hdr, some (.writeRegistersRequest 0 [1, 2])⟩) = false ∧
    decode (.request okFrame) = .ok (.parseReadHoldingRegisters 0xC0 [0x4E, 0x20, 0x00, 0x01, 0x82, 0x39]) := by decide +kernel

theorem witness_ResetDuringCommandAbandonsIt :
    { busy with host := [.issue (.request okFrame) .reset] }.host = .issue (.request okFrame) .reset :: [] ∧
    decode (.request okFrame) = .ok (.parseReadHoldingRegisters 0xC0 [0x4E, 0x20, 0x00, 0x01, 0x82, 0x39]) ∧
    0 < busy.params.outCap ∧ 8 < busy.params.outCap := by decide +kernel

theorem witness_BufferAccessDuringCommandHasNoStep :
    { busy with host := [.issue (.request okFrame) (.bufferAccess .readOut)] }.host =
      .issue (.request okFrame) (.bufferAccess .readOut) :: [] ∧
    decode (.request okFrame) = .ok (.parseReadHoldingRegisters 0xC0 [0x4E, 0x20, 0x00, 0x01, 0x82, 0x39]) := by decide +kernel

/-- The last offset that exists and the first that does not. -/
theorem witness_IdleBlockLeavesHostItsBuffer :
    State.reset.host = [] ∧ { busy with host := [.reset] }.host = .reset :: [] ∧
    { busy with host := [.writeOut 8 1] }.host = .writeOut 8 1 :: [] ∧ 8 < busy.params.outCap ∧ busy.params.outCap ≤ 9 := by
  decide +kernel

/-- Two states with the same parameters that differ in everything else. -/
theorem witness_ResultsDependOnlyOnOperands :
    busy.params = { busy with host := [], out := [(0, 1)], result := some (.crc 1), draws := 5 }.params ∧
    (∃ t, exec (.serializeWriteRegisterResponse hdr 1 3) busy = .next t ∧ t.result = some (.serialized true 8)) :=
  ⟨rfl, next_of_result (by decide +kernel)⟩

theorem witness_OnlySerializeWritesOut :
    (∀ f, (Instr.parseReadCoils 1 []).toCommand ≠ .serialize f) ∧
    ∃ t, exec (.parseReadCoils 1 []) busy = .next t ∧ t.result = some (.parsed needMoreBytes) :=
  ⟨by simp [Instr.toCommand], next_of_result (by decide +kernel)⟩

theorem witness_DecodeEncodeRoundTrip :
    (Instr.parseIllegalFunction 0x11 0x07 []).wf = true ∧ (Instr.parseIllegalFunction 0x11 0xFF [1]).wf = true ∧
    (Instr.serializeUnrenderable ⟨hdr, some (.writeRegistersRequest 1 [2])⟩).wf = true ∧
    (Instr.serializeUnrenderable ⟨hdr, none⟩).wf = true := by decide +kernel

theorem witness_OpcodesSelectCommands :
    (port 0).toFrame? = some ⟨hdr, none⟩ ∧ (port 17).toFrame? = some ⟨hdr, some (.errorPayload 0)⟩ := by decide +kernel

theorem witness_WordsExpandToTheirCommand :
    decode (.response (port 15)) = .ok (.serializeUnrenderable ⟨hdr, some (.writeRegistersRequest 0 [])⟩) := by decide +kernel

theorem witness_RowsRunTheirCommand : (Instr.serializeUnrenderable ⟨hdr, some (.readCoilsRequest 1 2)⟩).wf = true := by decide +kernel

theorem witness_Crc16DeliversCompute :
    withinCap { busy.params with inCap := some 8 }.inCap okFrame.length = true ∧ withinCap none okFrame.length = true := by
  decide +kernel

/-- The first data byte and the last CRC byte of a frame. -/
theorem witness_CrcDetectsOneChangedByte :
    0 < ([0x01, 0x03] : List Byte).length + 2 ∧ byteAt ([0x01, 0x03] ++ wordBytes (compute [0x01, 0x03])) 0 ≠ 0x02 ∧
    3 < ([0x01, 0x03] : List Byte).length + 2 ∧ byteAt ([0x01, 0x03] ++ wordBytes (compute [0x01, 0x03])) 3 ≠ 0x00 := by
  decide +kernel

/-- A sequence as long as its limit, one longer, and the last bit of its last byte. -/
theorem witness_PackDeliversPackedBits :
    withinCap (some 2) [true, false].length = true ∧ withinCap (some 1) [true, false].length = false ∧
    0 < ceil8 [true, false].length ∧ 7 < 8 := by decide +kernel

theorem witness_UnpackDeliversBits :
    withinCap (some 8) okFrame.length = true ∧ withinCap (some 7) okFrame.length = false ∧ 63 < 8 * okFrame.length := by decide +kernel

theorem witness_UnpackMaxTruncates : withinCap (some 8) okFrame.length = true := by decide +kernel

theorem witness_PackUnpackLossless : (List.replicate 65535 true).length ≤ 65535 := by
  rw [List.length_replicate]

theorem witness_ParseAndItsRowsComplete :
    withinCap (some 0) ([] : List Byte).length = true ∧ withinCap (some 2) ([0x11, 0x01] : List Byte).length = true ∧
    FunctionCode.ofByte? 0x00 = none ∧
    FunctionCode.ofByte? 0x11 = none := by decide +kernel

theorem witness_ParseNeedsFourBytes : ([0x01, 0x03, 0x00] : List Byte).length < 4 ∧ ([] : List Byte).length < 4 := by decide +kernel

/-- The most bytes that are still too few, for both families. -/
theorem witness_ParseNeedsFixedPayloadBytes :
    ((0x06 : Byte) ∈ ([1, 2, 3, 4, 5, 6] : List Byte) ∧ ([0, 0, 0] : List Byte).length < 4) ∧
    ((0x10 : Byte) ∈ ([0x0F, 0x10] : List Byte) ∧ ([0, 0, 0, 0] : List Byte).length < 5) := by decide +kernel

/-- A read frame with no CRC byte, with a wrong CRC, and with its CRC. -/
theorem witness_ParseReadFamily :
    ((0x04 : Byte) = 0x04 ∧ Payload.readInputsRequest = Payload.readInputsRequest) ∧
    (okFrame.take 7).length < 6 + 2 ∧
    (6 + 2 ≤ (okFrame.set 7 0).length ∧ wordAt (okFrame.set 7 0) 6 ≠ compute ((okFrame.set 7 0).take 6)) ∧
    (6 + 2 ≤ okFrame.length ∧ wordAt okFrame 6 = compute (okFrame.take 6)) := by
  refine ⟨⟨rfl, rfl⟩, ?_⟩
  decide +kernel

theorem witness_ParseWriteSingleFamily :
    be16 0xFF 0x00 = 0xFF00 ∧ be16 0x00 0x00 = 0x0000 ∧ (be16 0x00 0xFF ≠ 0xFF00 ∧ be16 0x00 0xFF ≠ 0x0000) ∧
    (be16 0xFF 0x01 ≠ 0xFF00 ∧ be16 0xFF 0x01 ≠ 0x0000) := by decide +kernel

theorem witness_ParseByteCountOverrun :
    (0x0F : Byte) ∈ ([0x0F, 0x10] : List Byte) ∧ ([] : List Byte).length < (0x01 : Byte).toNat ∧
    (List.replicate 254 (0 : Byte)).length < (0xFF : Byte).toNat := by decide +kernel

/-- No data, and the most data. -/
theorem witness_ParseWriteMultipleCoils :
    ([] : List Byte).length = (0x00 : Byte).toNat ∧ (List.replicate 255 (0 : Byte)).length = (0xFF : Byte).toNat ∧
    0 < min (be16 0x00 0x01).toNat (8 * (0xFF : Byte).toNat) := by decide +kernel

theorem witness_ParseWriteMultipleRegisters :
    ([0x12, 0x34, 0x56] : List Byte).length = (0x03 : Byte).toNat ∧ 0 < (0x03 : Byte).toNat / 2 := by decide +kernel

theorem witness_ParseUnknownFunctionCode :
    2 ≤ ([0, 0] : List Byte).length ∧
    (0x00 : Byte) ∉ ([0x01, 0x02, 0x03, 0x04, 0x05, 0x06, 0x0F, 0x10] : List Byte) ∧
    (0x11 : Byte) ∉ ([0x01, 0x02, 0x03, 0x04, 0x05, 0x06, 0x0F, 0x10] : List Byte) := by decide +kernel

theorem witness_ParseReturnsOnlyFiveCodes : ∃ t, exec (.parse okFrame) busy = .next t :=
  ⟨_, okFrame_parses busy rfl⟩

/-- Whether `e` agrees with `d` below `d`'s bound, as far as both go, and on `d`'s length tests. -/
def agrees (d e : List Byte) : Bool :=
  (List.range (parseBounds d).1).all (fun a => !(a < d.length && a < e.length) || byteAt e a == byteAt d a) &&
    (parseBounds d).2.all (fun n => decide (e.length < n) == decide (d.length < n))

/-- On every path a span of another length, or with other bytes behind the bound: step S1, an unknown function code, a
coil reject, an overrun, a whole frame with a tail, and missing CRC bytes. -/
theorem witness_ParseIgnoresBytesAfterFrame :
    (∃ r, ParsesTo okFrame r ∧ r.code = .noError ∧ r.bytesRead ≠ 0 ∧
      (okFrame ++ [1]).take r.bytesRead = okFrame.take r.bytesRead) ∧
    agrees [0x11] [0x11, 0x03, 0x00] = true ∧ agrees [0x11, 0x99, 1, 2] [0x11, 0x99, 3, 4, 5] = true ∧
    agrees [0x11, 0x05, 0, 1, 0x12, 0x34, 7] [0x11, 0x05, 0, 1, 0x12, 0x34] = true ∧
    agrees [0x11, 0x10, 0, 1, 0, 1, 2, 9] [0x11, 0x10, 0, 1, 0, 1, 2] = true ∧
    agrees (okFrame ++ [1, 2]) (okFrame ++ [3]) = true ∧ agrees (okFrame.take 6) (okFrame.take 7) = true :=
  ⟨⟨_, okFrame_parses, by decide +kernel⟩, by decide +kernel⟩

theorem witness_ParsePrefixesAreIncomplete : (∃ f n, ParsesTo okFrame ⟨.noError, some f, n⟩) ∧ 0 < 8 ∧ 7 < 8 :=
  ⟨⟨_, _, okFrame_parses⟩, by decide +kernel, by decide +kernel⟩

theorem okFrame01_parses : ParsesTo [0x01, 0x03, 0x00, 0x00, 0x00, 0x01, 0x84, 0x0A]
    ⟨.noError, some ⟨⟨0x01, 0x03⟩, some (.readRegistersRequest 0 1)⟩, 8⟩ :=
  (parsesTo_iff _ _).2 (by decide +kernel)

/-- One frame whose address is no function code and one whose address is. -/
theorem witness_ParseResynchronises :
    (∃ f n, ParsesTo okFrame ⟨.noError, some f, n⟩ ∧
      byteAt okFrame 0 ∉ ([0x01, 0x02, 0x03, 0x04, 0x05, 0x06, 0x0F, 0x10] : List Byte)) ∧
    (∃ d f n, ParsesTo d ⟨.noError, some f, n⟩ ∧
      byteAt d 0 ∈ ([0x01, 0x02, 0x03, 0x04, 0x05, 0x06, 0x0F, 0x10] : List Byte) ∧ ∃ r, ParsesTo (0x99 :: d) r) :=
  ⟨⟨_, _, okFrame_parses, by decide +kernel⟩,
    ⟨_, _, _, okFrame01_parses, by decide +kernel, parseFrame _, (parsesTo_iff _ _).2 (Eq.refl (parseFrame _))⟩⟩

theorem coilFrame_parses : ParsesTo [0x11, 0x05, 0x00, 0xAC, 0xFF, 0x00, 0x4E, 0x8B]
    ⟨.noError, some ⟨⟨0x11, 0x05⟩, some (.writeCoilRequest 0x00AC true)⟩, 8⟩ :=
  (parsesTo_iff _ _).2 (by decide +kernel)

/-- A changed address, a changed last CRC byte, and a coil value changed to the other legal one. -/
theorem witness_ParseRejectsOneChangedByte :
    (∃ f, ParsesTo okFrame ⟨.noError, some f, okFrame.length⟩) ∧ (0 < okFrame.length ∧ byteAt okFrame 0 ≠ 0x11) ∧
    (7 < okFrame.length ∧ byteAt okFrame 7 ≠ 0x00) ∧ byteAt okFrame 1 ≠ 0x05 ∧
    wordAt ([0x11, 0x05, 0x00, 0xAC, 0xFF, 0x00, 0x4E, 0x8B].set 4 0x00) 4 = 0x0000 :=
  ⟨⟨_, okFrame_parses⟩, by decide +kernel, by decide +kernel, by decide +kernel, by decide +kernel⟩

theorem witness_HostCursorStaysInBuffer :
    (8 ≤ okFrame.length ∧ ∃ r, ParsesTo (okFrame.drop 8) r ∧ r.parseClass = .incomplete) ∧
    (0 ≤ okFrame.length ∧ ∃ r, ParsesTo (okFrame.drop 0) r ∧ r.parseClass ≠ .incomplete) :=
  ⟨⟨by decide +kernel, needMoreBytes, (parsesTo_iff _ _).2 (by decide +kernel), by decide +kernel⟩,
    ⟨by decide +kernel, _, okFrame_parses, by decide +kernel⟩⟩

/-- The code None, the last code, the codes on both sides of the gap, and a buffer of exactly five bytes. -/
theorem witness_SerializeErrorPayload :
    (0x00 : Byte) ∈ ([0, 1, 2, 3, 4, 5, 6, 7, 8, 0x0A, 0x0B] : List Byte) ∧
    (0x0B : Byte) ∈ ([0, 1, 2, 3, 4, 5, 6, 7, 8, 0x0A, 0x0B] : List Byte) ∧
    (0x09 : Byte) ∉ ([0, 1, 2, 3, 4, 5, 6, 7, 8, 0x0A, 0x0B] : List Byte) ∧
    (0x0C : Byte) ∉ ([0, 1, 2, 3, 4, 5, 6, 7, 8, 0x0A, 0x0B] : List Byte) ∧
    5 ≤ { busy.params with outCap := 5 }.outCap := by decide +kernel

theorem witness_ExcrespRendersExceptionResponse :
    (0x0B : Byte) ∈ ([0, 1, 2, 3, 4, 5, 6, 7, 8, 0x0A, 0x0B] : List Byte) ∧ 5 ≤ busy.params.outCap := by decide +kernel

/-- The most coil values whose byte count is one byte, in the smallest buffer they fit. -/
theorem witness_SerializeBitResponses :
    withinCap (some 2040) (List.replicate 2040 true).length = true ∧ ceil8 (List.replicate 2040 true).length ≤ 255 ∧
    5 + ceil8 (List.replicate 2040 true).length ≤ { busy.params with outCap := 260 }.outCap := by
  rw [List.length_replicate]
  decide +kernel

/-- The most register values whose byte count is one byte, in the smallest buffer they fit. -/
theorem witness_SerializeRegisterResponses :
    withinCap none (List.replicate 127 (1 : Word)).length = true ∧ 2 * (List.replicate 127 (1 : Word)).length ≤ 255 ∧
    5 + 2 * (List.replicate 127 (1 : Word)).length ≤ { busy.params with outCap := 259 }.outCap := by
  rw [List.length_replicate]
  decide +kernel

theorem witness_SerializeWriteResponses : 8 ≤ { busy.params with outCap := 8 }.outCap := by decide +kernel

theorem witness_UnrenderableShapesFail :
    withinCap (some 2) (frameValueCount ⟨hdr, some (.writeRegistersRequest 0 [1, 2])⟩) = true ∧
    (∃ a vs, (⟨hdr, some (.writeRegistersRequest 0 [1, 2])⟩ : Frame).payload = some (.writeRegistersRequest a vs)) ∧
    (⟨hdr, none⟩ : Frame).payload = none := ⟨by decide +kernel, ⟨_, _, rfl⟩, rfl⟩

/-- An accepted frame for each case: no rendering, no room, room. -/
theorem witness_SerializeFailsForThreeCauses :
    (frameAccepted busy.params ⟨hdr, none⟩ = true ∧ frameSize ⟨hdr, none⟩ = none) ∧
    (frameAccepted busy.params ⟨hdr, some (.readRegistersResponse [1, 2, 3])⟩ = true ∧
      frameSize ⟨hdr, some (.readRegistersResponse [1, 2, 3])⟩ = some (11, 6) ∧ 11 > busy.params.outCap) ∧
    (frameAccepted busy.params ⟨hdr, some (.readRegistersResponse [1, 2])⟩ = true ∧
      frameSize ⟨hdr, some (.readRegistersResponse [1, 2])⟩ = some (9, 4) ∧ ¬ 9 > busy.params.outCap) := by decide +kernel

theorem witness_HeaderFirstAndCrcLast :
    ∃ t, exec (.serialize ⟨hdr, some (.writeRegisterResponse 1 3)⟩) busy = .next t ∧ t.result = some (.serialized true 8) :=
  next_of_result (by decide +kernel)

theorem witness_ReferenceCapacityBoundsBursts : State.reset.params.outCap = 256 ∧ State.reset.params.bitsCap = none := by
  decide +kernel

theorem witness_EndToEndScenario : withinCap (some 1) 1 = true ∧ 7 ≤ { busy.params with outCap := 7 }.outCap := by decide +kernel

theorem witness_WriteSingleRoundTrip : 8 ≤ State.reset.params.outCap := by decide +kernel

/-- An accepted frame the renderer writes, and one it does not. -/
theorem witness_RenderStreamAgrees :
    frameAccepted busy.params ⟨hdr, some (.readRegistersResponse [1, 2])⟩ = true ∧
    (renderStream busy.params.outCap ⟨hdr, some (.readRegistersResponse [1, 2])⟩ WorkingState.start).isSome = true ∧
    frameAccepted busy.params ⟨hdr, some (.readRegistersResponse [1, 2, 3])⟩ = true ∧
    renderStream busy.params.outCap ⟨hdr, some (.readRegistersResponse [1, 2, 3])⟩ WorkingState.start = none := by
  decide +kernel

end Sys2Proof.Machine.Tests
end

section
/-! SUPPORT. What one interaction of the host can do when it answers a next state, and the parts of the state that no
instruction, no interaction and no step changes. -/

namespace Sys2Proof.Machine

/-- An accepted instruction answers a next state only where the host waits for it, or resets the block (R181, R185). -/
theorem runDuring_eq_next {i : Instr} {d : During} {s t : State} (e : runDuring i d s = .next t) :
    (d = .quiet ∧ exec i s = .next t) ∨ (d = .reset ∧ t = s.abandon) := by
  cases d with
  | quiet => exact .inl ⟨rfl, e⟩
  | reset => cases e; exact .inr ⟨rfl, rfl⟩
  | anotherCommand => cases e
  | bufferAccess a => cases e

/-- The four ways an interaction of the host answers a next state: a command that completes, a command abandoned by a
reset, a reset of the idle block, and a write of a byte of `Out` that exists. -/
theorem hostEvent_eq_next {e : HostEvent} {s t : State} (he : hostEvent e s = .next t) :
    (∃ w i, e = .issue w .quiet ∧ decode w = .ok i ∧ exec i s = .next t) ∨
    (∃ w i, e = .issue w .reset ∧ decode w = .ok i ∧ t = s.abandon) ∨
    (e = .reset ∧ t = s.resetIdle) ∨
    (∃ a v, e = .writeOut a v ∧ a < s.params.outCap ∧ t = { s with out := s.out.write a v }) := by
  cases e with
  | issue w d =>
    simp only [hostEvent] at he
    cases hw : decode w with
    | error err => simp [hw] at he
    | ok i =>
      rw [hw] at he
      rcases runDuring_eq_next he with ⟨rfl, h⟩ | ⟨rfl, h⟩
      · exact .inl ⟨w, i, rfl, hw, h⟩
      · exact .inr (.inl ⟨w, i, rfl, hw, h⟩)
  | reset => cases he; exact .inr (.inr (.inl ⟨rfl, rfl⟩))
  | writeOut a v =>
    simp only [hostEvent] at he
    split at he
    · cases he; exact .inr (.inr (.inr ⟨a, v, rfl, ‹_›, rfl⟩))
    · cases he

/-- No instruction changes a parameter or the host's queue. -/
theorem exec_keeps_params_host {i : Instr} {s t : State} (e : exec i s = .next t) :
    t.params = s.params ∧ t.host = s.host := by
  rcases exec_eq_next e with ⟨r, rfl⟩ | rfl | ⟨img, -, rfl⟩
  · exact ⟨s.complete_params r, s.complete_host r⟩
  · exact ⟨s.serializeFail_params, s.serializeFail_host⟩
  · exact ⟨s.serializeOk_params img, s.serializeOk_host img⟩

/-- No interaction of the host changes a parameter or what is still in the queue. -/
theorem hostEvent_keeps_params_host {e : HostEvent} {s t : State} (he : hostEvent e s = .next t) :
    t.params = s.params ∧ t.host = s.host := by
  rcases hostEvent_eq_next he with ⟨w, i, -, -, h⟩ | ⟨w, i, -, -, rfl⟩ | ⟨-, rfl⟩ | ⟨a, v, -, -, rfl⟩
  · exact exec_keeps_params_host h
  · exact ⟨s.abandon_params, s.abandon_host⟩
  · exact ⟨s.resetIdle_params, s.resetIdle_host⟩
  · exact ⟨rfl, rfl⟩

/-- Settles O4: with an empty queue the block waits, and otherwise the head is taken off the queue before it is done, which
keeps the parameters and the rest of the queue. -/
theorem everyStepTakesOneInteraction : Obligations.EveryStepTakesOneInteraction := by
  intro s t h
  cases hq : s.host with
  | nil =>
    rw [step_idle s hq] at h
    cases h
    exact ⟨rfl, hq⟩
  | cons e rest =>
    rw [step_cons s e rest hq] at h
    exact hostEvent_keeps_params_host h

end Sys2Proof.Machine
end

section
/-! SUPPORT. The invariant between two commands, the one form that every meaning has, and the statements of 10_state.md
about the machine as a whole. -/

namespace Sys2Proof.Machine

/-! ## The invariant -/

/-- `Out` is in its canonical form and lists only offsets that exist (R42). -/
def State.OutValid (s : State) : Prop := s.out.wf = true ∧ ∀ c ∈ s.out, c.1 < s.params.outCap

theorem State.inv_iff (s : State) : s.inv = true ↔ s.OutValid ∧ s.work = WorkingState.start := by
  simp [State.inv, State.OutValid]

theorem State.OutValid.writeBytes {s : State} (h : s.OutValid) {a : Nat} {bs : List Byte}
    (hb : bs.length = 0 ∨ a + bs.length ≤ s.params.outCap) :
    ({ s with out := s.out.writeBytes a bs } : State).OutValid :=
  ⟨Memory.writeBytes_wf bs s.out a h.1, Memory.writeBytes_bounded bs s.out a _ h.2 hb⟩

theorem State.OutValid.write {s : State} (h : s.OutValid) {a : Nat} {v : Byte} (ha : a < s.params.outCap) :
    ({ s with out := s.out.write a v } : State).OutValid :=
  h.writeBytes (bs := [v]) (.inr ha)

theorem State.OutValid.unspecifyOut {s : State} (h : s.OutValid) (lo : Nat) : (s.unspecifyOut lo).OutValid :=
  h.writeBytes (by rw [freeBytes_length]; omega)

theorem State.OutValid.serializeOk {s : State} (h : s.OutValid) {img : List Byte}
    (hl : img.length ≤ s.params.outCap) : (s.serializeOk img).OutValid :=
  (h.writeBytes (a := 0) (.inr (by omega))).unspecifyOut img.length

/-- An instruction ends with fresh working state, and writes `Out` only where it has a byte. -/
theorem exec_keeps_inv {i : Instr} {s t : State} (hs : s.inv = true) (e : exec i s = .next t) : t.inv = true := by
  obtain ⟨hout, -⟩ := s.inv_iff.1 hs
  rw [State.inv_iff]
  rcases exec_eq_next e with ⟨r, rfl⟩ | rfl | ⟨img, hl, rfl⟩
  · exact ⟨hout, rfl⟩
  · exact ⟨hout.unspecifyOut 0, rfl⟩
  · exact ⟨hout.serializeOk hl, rfl⟩

theorem hostEvent_keeps_inv {e : HostEvent} {s t : State} (hs : s.inv = true) (he : hostEvent e s = .next t) :
    t.inv = true := by
  obtain ⟨hout, hwork⟩ := s.inv_iff.1 hs
  rcases hostEvent_eq_next he with ⟨w, i, -, -, h⟩ | ⟨w, i, -, -, rfl⟩ | ⟨-, rfl⟩ | ⟨a, v, -, ha, rfl⟩
  · exact exec_keeps_inv hs h
  · exact (State.inv_iff _).2 ⟨hout.unspecifyOut 0, rfl⟩
  · exact (State.inv_iff _).2 ⟨hout, rfl⟩
  · exact (State.inv_iff _).2 ⟨hout.write ha, hwork⟩

/-- Settles O3: an idle step changes nothing, and otherwise the invariant, which does not look at the queue, holds of the
state without its head and is kept by each of the host's four interactions. -/
theorem everyStepKeepsInvariant : Obligations.EveryStepKeepsInvariant := by
  intro s t hs h
  cases hq : s.host with
  | nil =>
    rw [step_idle s hq] at h
    cases h
    exact hs
  | cons e rest =>
    rw [step_cons s e rest hq] at h
    exact hostEvent_keeps_inv (s := { s with host := rest }) hs h

/-- Settles O2: no offset of `Out` is listed, the working state is fresh, and the queue is empty. -/
theorem resetMeetsInvariant : Obligations.ResetMeetsInvariant :=
  ⟨(State.inv_iff _).2 ⟨⟨rfl, by simp [State.reset]⟩, rfl⟩, rfl⟩

/-- Settles O1, field by field. -/
theorem resetLeavesIdleFreshMachine : Obligations.ResetLeavesIdleFreshMachine :=
  ⟨rfl, rfl, rfl, rfl, rfl, rfl, rfl, rfl, rfl, rfl, fun _ => ite_self _, rfl⟩

/-! ## The form of every meaning -/

/-- The forms a meaning has, each with data that no state has a part in: a span checked and a result delivered, a value
sequence checked and a result delivered, the shared end of SERIALIZE, a refusal. -/
inductive HasSharedForm : (State → StepOutcome) → Prop where
  | span (d : List Byte) (r : Result) (hr : ∀ ok n, r ≠ .serialized ok n) :
      HasSharedForm (fun s => guardInput d s (.next (s.complete r)))
  | values (n : Nat) (r : Result) (hr : ∀ ok n, r ≠ .serialized ok n) :
      HasSharedForm (fun s => guardValues n s (.next (s.complete r)))
  | rendering (h : CommandHeader) (body : Option (List Byte)) (n : Nat) : HasSharedForm (finishSerialize h body n)
  | refusal (e : Refusal) : HasSharedForm (fun _ => .refused e)

theorem serializeError_hasSharedForm (h : CommandHeader) (c : Byte) : HasSharedForm (serializeError h c) := by
  unfold serializeError
  cases ExceptionCode.ofByte? c with
  | none => exact .refusal _
  | some x => exact .rendering h (errorBody c) 0

theorem serializeFrame_hasSharedForm (f : Frame) : HasSharedForm (serializeFrame f) := by
  by_cases hf : ∃ c, f.payload = some (.errorPayload c)
  · obtain ⟨c, hc⟩ := hf
    have e : serializeFrame f = serializeError f.header c := funext fun s => by simp [serializeFrame, hc]
    exact e ▸ serializeError_hasSharedForm f.header c
  · have e : serializeFrame f = finishSerialize f.header (bodyOf f) (frameValueCount f) :=
      funext fun s => serializeFrame_eq_finish f s fun c hc => absurd ⟨c, hc⟩ hf
    exact e ▸ .rendering f.header (bodyOf f) (frameValueCount f)

theorem exec_hasSharedForm (i : Instr) : HasSharedForm (exec i) := by
  cases i with
  | pack bits => exact .values bits.length (.bytes (packBits bits)) nofun
  | serialize f => exact serializeFrame_hasSharedForm f
  | excresp a fc c => exact serializeFrame_hasSharedForm (excrespFrame a fc c)
  | serializeErrorPayload h c => exact serializeError_hasSharedForm h c
  | serializeReadCoilsResponse h vs => exact .rendering h (bitsBody vs) vs.length
  | serializeReadDiscreteInputsResponse h vs => exact .rendering h (bitsBody vs) vs.length
  | serializeReadRegistersResponse h vs => exact .rendering h (registersBody vs) vs.length
  | serializeReadInputsResponse h vs => exact .rendering h (registersBody vs) vs.length
  | serializeWriteCoilResponse h a v => exact .rendering h (pairBody a (coilWord v)) 0
  | serializeWriteRegisterResponse h a v => exact .rendering h (pairBody a v) 0
  | serializeWriteCoilsResponse h a n => exact .rendering h (pairBody a n) 0
  | serializeWriteRegistersResponse h a n => exact .rendering h (pairBody a n) 0
  | serializeUnrenderable f => exact .rendering f.header none (frameValueCount f)
  | crc16 d => exact .span d (.crc (compute d)) nofun
  | unpack d => exact .span d (.bits (unpackBytes d)) nofun
  | unpackMax d m => exact .span d (.bits (unpackBytesMax d m)) nofun
  | parse d => exact .span d (.parsed _) nofun
  | parseReadCoils a r => exact .span (a :: 0x01 :: r) (.parsed _) nofun
  | parseReadDiscreteInputs a r => exact .span (a :: 0x02 :: r) (.parsed _) nofun
  | parseReadHoldingRegisters a r => exact .span (a :: 0x03 :: r) (.parsed _) nofun
  | parseReadInputRegisters a r => exact .span (a :: 0x04 :: r) (.parsed _) nofun
  | parseWriteSingleCoil a r => exact .span (a :: 0x05 :: r) (.parsed _) nofun
  | parseWriteSingleHoldingRegister a r => exact .span (a :: 0x06 :: r) (.parsed _) nofun
  | parseWriteMultipleCoils a r => exact .span (a :: 0x0F :: r) (.parsed _) nofun
  | parseWriteMultipleHoldingRegisters a r => exact .span (a :: 0x10 :: r) (.parsed _) nofun
  | parseIllegalFunction a fc r => exact .span (a :: fc :: r) (.parsed _) nofun

/-! ## Results depend on operands and parameters only -/

/-- What a host sees of a command is the same in both states: the result, the fresh working state, the parameters, and
after a success the image. -/
def State.SameDelivery (t t' : State) : Prop :=
  t'.result = t.result ∧ t'.work = t.work ∧ t'.params = t.params ∧
    ∀ n, t.result = some (.serialized true n) → ∀ a, a < n → t'.outByte a = t.outByte a

theorem State.sameDelivery_complete {s s' : State} (hp : s.params = s'.params) {r : Result}
    (hr : ∀ ok n, r ≠ .serialized ok n) : State.SameDelivery (s.complete r) (s'.complete r) :=
  ⟨rfl, rfl, hp.symm, fun n e => absurd (Option.some.inj e) (hr true n)⟩

theorem State.sameDelivery_serializeFail {s s' : State} (hp : s.params = s'.params) :
    State.SameDelivery s.serializeFail s'.serializeFail :=
  ⟨rfl, rfl, hp.symm, nofun⟩

theorem State.sameDelivery_serializeOk {s s' : State} (hp : s.params = s'.params) {img : List Byte}
    (hl : img.length ≤ s.params.outCap) : State.SameDelivery (s.serializeOk img) (s'.serializeOk img) := by
  refine ⟨rfl, rfl, hp.symm, fun n e a ha => ?_⟩
  cases e
  rw [State.serializeOk_outByte s img hl, State.serializeOk_outByte s' img (hp ▸ hl), if_pos ha, if_pos ha]

theorem finishSerialize_sameDelivery {h : CommandHeader} {body : Option (List Byte)} {n : Nat} {s s' t : State}
    (hp : s.params = s'.params) (e : finishSerialize h body n s = .next t) :
    ∃ t', finishSerialize h body n s' = .next t' ∧ t.SameDelivery t' := by
  obtain ⟨hc, ⟨rfl, rfl⟩ | ⟨bs, rfl, hl, rfl⟩ | ⟨bs, rfl, hl, rfl⟩⟩ := finishSerialize_eq_next e
  · exact ⟨_, finishSerialize_none h n s' (hp ▸ hc), State.sameDelivery_serializeFail hp⟩
  · exact ⟨_, by rw [finishSerialize_some h bs n s' (hp ▸ hc), if_pos (hp ▸ hl)], State.sameDelivery_serializeFail hp⟩
  · exact ⟨_, by rw [finishSerialize_some h bs n s' (hp ▸ hc), if_neg (hp ▸ Nat.not_lt.2 hl)],
      State.sameDelivery_serializeOk hp hl⟩

/-- A meaning of the shared form sees of the state only its parameters. -/
theorem HasSharedForm.sameDelivery {m : State → StepOutcome} (hm : HasSharedForm m) {s s' t : State}
    (hp : s.params = s'.params) (e : m s = .next t) : ∃ t', m s' = .next t' ∧ t.SameDelivery t' := by
  cases hm with
  | span d r hr =>
    obtain ⟨hc, h⟩ := guardInput_eq_next e
    cases h
    exact ⟨_, guardInput_of_fits d s' _ (hp ▸ hc), State.sameDelivery_complete hp hr⟩
  | values n r hr =>
    obtain ⟨hc, h⟩ := guardValues_eq_next e
    cases h
    exact ⟨_, guardValues_of_fits n s' _ (hp ▸ hc), State.sameDelivery_complete hp hr⟩
  | rendering h body n => exact finishSerialize_sameDelivery hp e
  | refusal x => cases e

/-- Settles O12: every instruction's meaning has the shared form, with data that come from its operands alone. -/
theorem resultsDependOnlyOnOperands : Obligations.ResultsDependOnlyOnOperands :=
  fun i _ _ _ hp e => (exec_hasSharedForm i).sameDelivery hp e

/-! ## A step runs the decoded instruction -/

/-- An issued word that decodes is the instruction, under what the host does until it completes. -/
theorem hostEvent_issue_of_decode {w : PortWord} {i : Instr} (h : decode w = .ok i) (d : During) (s : State) :
    hostEvent (.issue w d) s = runDuring i d s := by simp [hostEvent, h]

theorem decode_of_decodeTableWord {nbits w : Nat} {i : Instr} (h : decodeTableWord nbits w = some i) :
    decode (tableWord nbits w) = .ok i := by
  unfold decodeTableWord at h
  split at h
  · cases h
    assumption
  · cases h

theorem step_of_issue {s : State} {w : PortWord} {rest : List HostEvent} {i : Instr}
    (hq : s.host = .issue w .quiet :: rest) (h : decode w = .ok i) : step s = exec i { s with host := rest } := by
  rw [step_cons s _ rest hq, hostEvent_issue_of_decode h]
  rfl

/-- Settles O5: the host waits, so the decoded instruction runs; a table word is such an issue at the head of the queue. -/
theorem stepRunsDecodedInstruction : Obligations.StepRunsDecodedInstruction :=
  ⟨fun _ _ _ _ => step_of_issue, fun s nbits w _ h => by
    rw [step_of_issue (s.withFetchWord_host nbits w) (decode_of_decodeTableWord h), State.withFetchWord_taken]⟩

end Sys2Proof.Machine

/-! ## The enumerations -/

namespace Sys2Proof

theorem FunctionCode.ofByte?_isSome_iff (b : Byte) :
    (FunctionCode.ofByte? b).isSome = true ↔ b ∈ FunctionCode.all.map FunctionCode.toByte := by
  rw [FunctionCode.ofByte?, List.find?_isSome, List.mem_map]
  simp only [beq_iff_eq]

theorem ExceptionCode.ofByte?_isSome_iff (b : Byte) :
    (ExceptionCode.ofByte? b).isSome = true ↔ b ∈ ExceptionCode.all.map ExceptionCode.toByte := by
  rw [ExceptionCode.ofByte?, List.find?_isSome, List.mem_map]
  simp only [beq_iff_eq]

/-- Settles O16: a byte is a member if it is the value of a listed code, and the listed codes have these values. -/
theorem enumerationsHaveTheListedBytes : Obligations.EnumerationsHaveTheListedBytes :=
  ⟨FunctionCode.ofByte?_isSome_iff, ExceptionCode.ofByte?_isSome_iff⟩

end Sys2Proof
end


section
/-! SUPPORT. Who may touch the buffers (20_memory.md): a host that does so during a command gets no step, between commands
it writes `Out` where `Out` has a byte, and of the commands only SERIALIZE writes it. -/

namespace Sys2Proof.Machine

/-- Settles O10: the word decodes, so the command is in progress when the host touches a buffer. -/
theorem bufferAccessDuringCommandHasNoStep : Obligations.BufferAccessDuringCommandHasNoStep := by
  intro s w i a rest hq hw
  rw [step_cons s _ rest hq, hostEvent_issue_of_decode hw]
  rfl

/-! ## The idle block -/

@[simp] theorem hostEvent_reset (s : State) : hostEvent .reset s = .next s.resetIdle := rfl

theorem hostEvent_writeOut_of_lt (s : State) {a : Nat} (v : Byte) (ha : a < s.params.outCap) :
    hostEvent (.writeOut a v) s = .next { s with out := s.out.write a v } := if_pos ha

theorem hostEvent_writeOut_of_le (s : State) {a : Nat} (v : Byte) (ha : s.params.outCap ≤ a) :
    hostEvent (.writeOut a v) s = .fault (.noSuchOutOffset a) := if_neg (Nat.not_lt.2 ha)

/-- What `Out` reads as after a byte of it that exists has been written. -/
theorem State.write_outByte (s : State) {a : Nat} (v : Byte) (ha : a < s.params.outCap) (b : Nat) :
    ({ s with out := s.out.write a v } : State).outByte b = if b = a then some v else s.outByte b := by
  by_cases hb : b = a
  · simp [State.outByte, Memory.read_write, hb, ha]
  · simp [State.outByte, Memory.read_write, hb, Ne.symm hb]

/-- Settles O11: the empty queue, a reset at its head, and a write at its head inside and outside `Out`. -/
theorem idleBlockLeavesHostItsBuffer : Obligations.IdleBlockLeavesHostItsBuffer := by
  refine ⟨step_idle, fun s rest hq => ?_, fun s a v rest hq => ⟨fun ha => ?_, fun ha => ?_⟩⟩
  · rw [step_cons s _ rest hq, hostEvent_reset]
    rfl
  · rw [step_cons s _ rest hq, hostEvent_writeOut_of_lt { s with host := rest } v ha]
    exact ⟨_, rfl, rfl, rfl, rfl, State.write_outByte { s with host := rest } v ha⟩
  · rw [step_cons s _ rest hq, hostEvent_writeOut_of_le { s with host := rest } v ha]

/-! ## The frame of the commands other than SERIALIZE -/

theorem guardInput_complete_eq_next {d : List Byte} {s t : State} {r : Result}
    (e : guardInput d s (.next (s.complete r)) = .next t) : t = s.complete r := by
  cases (guardInput_eq_next e).2
  rfl

theorem guardValues_complete_eq_next {n : Nat} {s t : State} {r : Result}
    (e : guardValues n s (.next (s.complete r)) = .next t) : t = s.complete r := by
  cases (guardValues_eq_next e).2
  rfl

/-- A command other than SERIALIZE delivers a result and does nothing else: past the check of its operand's length it is
`State.complete` (R52). -/
theorem exec_eq_complete {i : Instr} {s t : State} (hi : ∀ f, i.toCommand ≠ .serialize f) (e : exec i s = .next t) :
    ∃ r, t = s.complete r := by
  cases i with
  | pack => exact ⟨_, guardValues_complete_eq_next e⟩
  | crc16 | unpack | unpackMax | parse | parseReadCoils | parseReadDiscreteInputs | parseReadHoldingRegisters
  | parseReadInputRegisters | parseWriteSingleCoil | parseWriteSingleHoldingRegister | parseWriteMultipleCoils
  | parseWriteMultipleHoldingRegisters | parseIllegalFunction => exact ⟨_, guardInput_complete_eq_next e⟩
  | serialize | excresp | serializeErrorPayload | serializeReadCoilsResponse | serializeReadDiscreteInputsResponse
  | serializeReadRegistersResponse | serializeReadInputsResponse | serializeWriteCoilResponse
  | serializeWriteRegisterResponse | serializeWriteCoilsResponse | serializeWriteRegistersResponse
  | serializeUnrenderable => exact (hi _ rfl).elim

/-- Settles O13: the next state is a completion of the old one, whose fields are known. -/
theorem onlySerializeWritesOut : Obligations.OnlySerializeWritesOut := by
  intro i s t hi e
  obtain ⟨r, rfl⟩ := exec_eq_complete hi e
  exact ⟨s.complete_outByte r, s.complete_out r, s.complete_params r, s.complete_host r, s.complete_draws r,
    s.complete_work r⟩

end Sys2Proof.Machine
end

section
/-! SUPPORT. Words, instructions and rows (30_encoding.md): the encoder and the decoder agree, a word expands to the
command of its row, a row runs its command, and the images SERIALIZE renders. -/

namespace Sys2Proof

/-! ## The formats of the decoder -/

/-- The SERIALIZE command decodes to the frame on its port, where the port has a legal tag (R77, R78). -/
theorem decode_command_serialize {p : Ports} {f : Frame} (h : p.frame.toFrame? = some f) :
    decode (.command 0x06 p) = .ok (.serialize f) := by simp [decode, decodeCommand, h]

/-- A response word decodes to the row of the frame on its port, where the port has a legal tag (R76). -/
theorem decode_response {p : FramePort} {f : Frame} (h : p.toFrame? = some f) :
    decode (.response p) = .ok (decodeResponseRow f) := by simp [decode, h]

theorem decode_encodeResponse (h : CommandHeader) (p : Payload) :
    decode (encodeResponse h p) = .ok (decodeResponseRow { header := h, payload := some p }) :=
  decode_response (FramePort.toFrame?_ofFrame _)

/-- The four formats of a word that decodes, and the instruction each gives. -/
theorem decode_eq_ok {w : PortWord} {i : Instr} (h : decode w = .ok i) :
    (∃ opcode p, w = .command opcode p ∧ decodeCommand opcode p = .ok i) ∨
    (∃ slave fc rest, w = .request (slave :: fc :: rest) ∧ i = decodeRequestRow slave fc rest) ∨
    (∃ p f, w = .response p ∧ p.toFrame? = some f ∧ i = decodeResponseRow f) ∨
    (∃ addr fc code, w = .pseudo addr fc code ∧ i = .excresp addr fc code) := by
  cases w with
  | command opcode p => exact .inl ⟨opcode, p, rfl, h⟩
  | request span =>
    match span, h with
    | slave :: fc :: rest, h => cases h; exact .inr (.inl ⟨slave, fc, rest, rfl, rfl⟩)
  | response p =>
    cases hf : p.toFrame? with
    | none => simp [decode, hf] at h
    | some f =>
      rw [decode_response hf] at h
      cases h
      exact .inr (.inr (.inl ⟨p, f, rfl, hf, rfl⟩))
  | pseudo addr fc code => cases h; exact .inr (.inr (.inr ⟨addr, fc, code, rfl, rfl⟩))

/-- A word in format CMD decodes to one of the six commands: a well-formed instruction that is a row of itself (R78). -/
theorem decodeCommand_eq_ok {opcode : Byte} {p : Ports} {i : Instr} (h : decodeCommand opcode p = .ok i) :
    i.wf = true ∧ i.toCommand = i := by
  unfold decodeCommand at h
  split at h
  case h_6 =>
    split at h
    · cases h; exact ⟨rfl, rfl⟩
    · cases h
  case h_7 => cases h
  all_goals cases h; exact ⟨rfl, rfl⟩

/-! ## The rows of PARSE -/

theorem decodeRequestRow_of_ofByte?_none {fc : Byte} (h : FunctionCode.ofByte? fc = none) (slave : Byte)
    (rest : List Byte) : decodeRequestRow slave fc rest = .parseIllegalFunction slave fc rest := by
  simp [decodeRequestRow, h]

/-- To show something of the row of every byte 1, show it of the rows of the eight function codes and of the row of the
other bytes (R75, R80). -/
theorem functionCodeByte_cases {P : Byte → Prop} (known : ∀ c : FunctionCode, P c.toByte)
    (unknown : ∀ fc, FunctionCode.ofByte? fc = none → P fc) (fc : Byte) : P fc := by
  cases h : FunctionCode.ofByte? fc with
  | none => exact unknown fc h
  | some c => exact (FunctionCode.ofByte?_eq_some fc c).1 h ▸ known c

theorem decodeRequestRow_wf (slave fc : Byte) (rest : List Byte) : (decodeRequestRow slave fc rest).wf = true := by
  induction fc using functionCodeByte_cases with
  | known c => cases c <;> rfl
  | unknown fc h =>
    rw [decodeRequestRow_of_ofByte?_none h]
    exact Option.isNone_iff_eq_none.2 h

theorem decodeRequestRow_toCommand (slave fc : Byte) (rest : List Byte) :
    (decodeRequestRow slave fc rest).toCommand = .parse (slave :: fc :: rest) := by
  induction fc using functionCodeByte_cases with
  | known c => cases c <;> rfl
  | unknown fc h =>
    rw [decodeRequestRow_of_ofByte?_none h]
    rfl

/-! ## The rows of SERIALIZE -/

/-- The tags of R147 are the tags of the frames whose row is SERIALIZE.Unrenderable. -/
theorem contains_unrenderableTags_iff (f : Frame) :
    unrenderableTags.contains f.tag = true ↔ decodeResponseRow f = .serializeUnrenderable f := by
  obtain ⟨h, _ | p⟩ := f
  · exact iff_of_true rfl rfl
  · cases p with
    | errorPayload | readCoilsResponse | readDiscreteInputsResponse | readRegistersResponse | readInputsResponse
    | writeCoilResponse | writeRegisterResponse | writeCoilsResponse | writeRegistersResponse =>
      exact iff_of_false (nomatch ·) (nomatch ·)
    | readCoilsRequest | readDiscreteInputsRequest | readRegistersRequest | readInputsRequest | writeCoilRequest
    | writeRegisterRequest | writeCoilsRequest | writeRegistersRequest => exact iff_of_true rfl rfl

theorem decodeResponseRow_wf (f : Frame) : (decodeResponseRow f).wf = true := by
  obtain ⟨h, _ | p⟩ := f
  · rfl
  · cases p <;> rfl

theorem decodeResponseRow_toCommand (f : Frame) : (decodeResponseRow f).toCommand = .serialize f := by
  obtain ⟨h, _ | p⟩ := f
  · rfl
  · cases p <;> rfl

/-! ## Encoding, decoding and expanding -/

/-- Settles O14: a command and a PARSE row of a fixed function code compute, the illegal-function row needs its byte to
be no function code, and a SERIALIZE row comes back through the frame port. -/
theorem decodeEncodeRoundTrip : Obligations.DecodeEncodeRoundTrip := by
  intro i hi
  cases i with
  | crc16 | pack | unpack | unpackMax | parse | excresp => rfl
  | serialize f => exact decode_command_serialize (FramePort.toFrame?_ofFrame f)
  | parseReadCoils | parseReadDiscreteInputs | parseReadHoldingRegisters | parseReadInputRegisters
  | parseWriteSingleCoil | parseWriteSingleHoldingRegister | parseWriteMultipleCoils
  | parseWriteMultipleHoldingRegisters => rfl
  | parseIllegalFunction slave fc rest =>
    exact congrArg Except.ok (decodeRequestRow_of_ofByte?_none (Option.isNone_iff_eq_none.1 hi) slave rest)
  | serializeErrorPayload | serializeReadCoilsResponse | serializeReadDiscreteInputsResponse
  | serializeReadRegistersResponse | serializeReadInputsResponse | serializeWriteCoilResponse
  | serializeWriteRegisterResponse | serializeWriteCoilsResponse | serializeWriteRegistersResponse =>
    exact decode_encodeResponse _ _
  | serializeUnrenderable f =>
    exact (decode_response (FramePort.toFrame?_ofFrame f)).trans
      (congrArg Except.ok ((contains_unrenderableTags_iff f).1 hi))

/-- Settles O17, format by format: a command expands to itself, a request to PARSE of its span, a response and EXCRESP
to SERIALIZE of their frame. -/
theorem wordsExpandToTheirCommand : Obligations.WordsExpandToTheirCommand := by
  intro w i h
  obtain ⟨opcode, p, rfl, hi⟩ | ⟨slave, fc, rest, rfl, rfl⟩ | ⟨p, f, rfl, hf, rfl⟩ | ⟨addr, fc, code, rfl, rfl⟩ :=
    decode_eq_ok h
  · obtain ⟨hwf, hc⟩ := decodeCommand_eq_ok hi
    exact ⟨hwf, h.trans (congrArg Except.ok hc.symm)⟩
  · exact ⟨decodeRequestRow_wf slave fc rest, congrArg Except.ok (decodeRequestRow_toCommand slave fc rest).symm⟩
  · exact ⟨decodeResponseRow_wf f, (decode_command_serialize hf).trans
      (congrArg Except.ok (decodeResponseRow_toCommand f).symm)⟩
  · exact ⟨rfl, decode_command_serialize (FramePort.toFrame?_ofFrame (excrespFrame addr fc code))⟩

/-- Settles O15: the opcode picks the command, and SERIALIZE takes the frame its port stands for. -/
theorem opcodesSelectCommands : Obligations.OpcodesSelectCommands :=
  fun _ => ⟨rfl, rfl, rfl, rfl, rfl, fun _ => decode_command_serialize⟩

end Sys2Proof

namespace Sys2Proof.Machine

/-! ## A row runs its command -/

theorem subParserOf_of_ofByte?_none {fc : Byte} (h : FunctionCode.ofByte? fc = none) :
    subParserOf fc = subIllegalFunction := by simp [subParserOf, h]

theorem exec_decodeRequestRow (slave fc : Byte) (rest : List Byte) (s : State) :
    exec (decodeRequestRow slave fc rest) s = exec (.parse (slave :: fc :: rest)) s := by
  induction fc using functionCodeByte_cases with
  | known c => cases c <;> rfl
  | unknown fc h =>
    have hp : parseFrame (slave :: fc :: rest) = parseWith subIllegalFunction (slave :: fc :: rest) := by
      rw [parseFrame_cons_cons, subParserOf_of_ofByte?_none h]
    rw [decodeRequestRow_of_ofByte?_none h]
    exact congrArg (completeParse _ · s) hp.symm

theorem exec_decodeResponseRow (f : Frame) (s : State) :
    exec (decodeResponseRow f) s = exec (.serialize f) s := by
  obtain ⟨h, _ | p⟩ := f
  · rfl
  · cases p <;> rfl

/-- Settles O18: a well-formed instruction is what its word decodes to, and of the four formats of a word a command is a
row of itself, and a dispatch row does what its command does. -/
theorem rowsRunTheirCommand : Obligations.RowsRunTheirCommand := by
  intro i s hi
  obtain ⟨opcode, p, -, hc⟩ | ⟨slave, fc, rest, -, rfl⟩ | ⟨p, f, -, -, rfl⟩ | ⟨addr, fc, code, -, rfl⟩ :=
    decode_eq_ok (decodeEncodeRoundTrip i hi)
  · rw [(decodeCommand_eq_ok hc).2]
  · rw [decodeRequestRow_toCommand, exec_decodeRequestRow]
  · rw [decodeResponseRow_toCommand, exec_decodeResponseRow]
  · rfl

/-! ## What SERIALIZE and its rows render -/

/-- SERIALIZE of an accepted frame whose layout has a body and whose image fits renders that image, and so does every
row of that SERIALIZE. -/
theorem renders_of_body {i : Instr} {h : CommandHeader} {pl : Payload} {s : State} {bs : List Byte}
    (hi : i.wf = true) (hr : i.toCommand = .serialize { header := h, payload := some pl })
    (hm : ∀ c, some pl = some (.errorPayload c) → (ExceptionCode.ofByte? c).isSome = true)
    (hn : withinCap s.params.bitsCap (frameValueCount { header := h, payload := some pl }) = true)
    (hb : bodyOf { header := h, payload := some pl } = some bs) (hl : bs.length + 4 ≤ s.params.outCap) :
    Renders i (imageOf h bs) s := by
  refine renders_of_finish ?_ hn ((imageOf_length h bs).trans_le hl)
  calc exec i s = serializeFrame { header := h, payload := some pl } s := by rw [rowsRunTheirCommand i s hi, hr]; rfl
    _ = finishSerialize h (some bs) (frameValueCount { header := h, payload := some pl }) s := by
      rw [serializeFrame_eq_finish _ s hm, hb]

/-! ### Exception responses -/

/-- The exception response (R65, R142), from every instruction that is a row of its SERIALIZE. -/
theorem renders_errorPayload {i : Instr} {h : CommandHeader} {c : Byte} {s : State} (hi : i.wf = true)
    (hr : i.toCommand = .serialize { header := h, payload := some (.errorPayload c) })
    (hc : c ∈ ([0, 1, 2, 3, 4, 5, 6, 7, 8, 0x0A, 0x0B] : List Byte)) (hl : 5 ≤ s.params.outCap) :
    Renders i (imageOf h [c]) s := by
  refine renders_of_body hi hr (fun d hd => ?_) (withinCap_zero _) rfl hl
  cases hd
  exact (enumerationsHaveTheListedBytes.2 c).2 hc

theorem serializeError_of_not_isSome {c : Byte} (hc : ¬ (ExceptionCode.ofByte? c).isSome = true) (h : CommandHeader)
    (s : State) : serializeError h c s = .refused (.notAnExceptionCode c) := by
  simp [serializeError, Option.not_isSome_iff_eq_none.1 hc]

/-- Settles O46: a listed byte is an ExceptionCode, so the body is rendered, and any other byte is refused. -/
theorem serializeErrorPayload : Obligations.SerializeErrorPayload := by
  intro s h c
  refine ⟨fun hc hl => ⟨renders_errorPayload rfl rfl hc hl, renders_errorPayload rfl rfl hc hl⟩, fun hc => ?_⟩
  have hr := serializeError_of_not_isSome (mt (enumerationsHaveTheListedBytes.2 c).1 hc) h s
  exact ⟨hr, hr⟩

/-- Settles O47: EXCRESP is a row of SERIALIZE of the frame with bit 7 of the function code set. -/
theorem excrespRendersExceptionResponse : Obligations.ExcrespRendersExceptionResponse :=
  fun _ addr fc _ hc hl => renders_errorPayload (h := ⟨addr, fc ||| 0x80⟩) rfl rfl hc hl

/-! ### Read responses -/

theorem bitsBody_of_le {vs : List Bool} (h : ceil8 vs.length ≤ 255) :
    bitsBody vs = some (BitVec.ofNat 8 (ceil8 vs.length) :: packBits vs) := by
  simp [bitsBody, Nat.not_lt.2 h]

theorem registersBody_of_le {vs : List Word} (h : 2 * vs.length ≤ 255) :
    registersBody vs = some (BitVec.ofNat 8 (2 * vs.length) :: vs.flatMap wordBytes) := if_neg (Nat.not_lt.2 h)

/-- Settles O48: both variants have the same body, present up to 255 bytes of packed values. -/
theorem serializeBitResponses : Obligations.SerializeBitResponses := by
  intro s h vs hv hn hl
  have hb := bitsBody_of_le hn
  have hlen : (BitVec.ofNat 8 (ceil8 vs.length) :: packBits vs).length + 4 = 5 + ceil8 vs.length := by
    rw [List.length_cons, packBits_length]
    omega
  have hfit := hlen.trans_le hl
  refine ⟨(imageOf_length h _).trans hlen, ?_, ?_, ?_, ?_⟩ <;> exact renders_of_body rfl rfl nofun hv hb hfit

/-- Settles O49: both variants have the same body, present up to 255 bytes of values. -/
theorem serializeRegisterResponses : Obligations.SerializeRegisterResponses := by
  intro s h vs hv hn hl
  have hb := registersBody_of_le hn
  have hlen : (BitVec.ofNat 8 (2 * vs.length) :: vs.flatMap wordBytes).length + 4 = 5 + 2 * vs.length := by
    rw [List.length_cons, flatMap_wordBytes_length]
    omega
  have hfit := hlen.trans_le hl
  refine ⟨(imageOf_length h _).trans hlen, ?_, ?_, ?_, ?_⟩ <;> exact renders_of_body rfl rfl nofun hv hb hfit

/-! ### Write responses -/

theorem wordBytes_coilWord (b : Bool) : wordBytes (coilWord b) = [if b then 0xFF else 0x00, 0x00] := by
  cases b <;> rfl

/-- A write response (R68), from every instruction that is a row of its SERIALIZE: the address, then the two bytes of
its second word. -/
theorem renders_pair {i : Instr} {h : CommandHeader} {pl : Payload} {a v : Word} {x y : Byte} {s : State}
    (hi : i.wf = true) (hr : i.toCommand = .serialize { header := h, payload := some pl })
    (hm : ∀ c, some pl ≠ some (.errorPayload c)) (hn : frameValueCount { header := h, payload := some pl } = 0)
    (hb : bodyOf { header := h, payload := some pl } = pairBody a v) (hv : wordBytes v = [x, y])
    (hl : 8 ≤ s.params.outCap) : Renders i (imageOf h [hi8 a, lo8 a, x, y]) s :=
  renders_of_body hi hr (fun c hc => (hm c hc).elim) (hn ▸ withinCap_zero _)
    (hb.trans (congrArg (fun w => some (wordBytes a ++ w)) hv)) hl

/-- Settles O50: the coil variant's second word is the value of a coil on the wire (R72), the others' is as given. -/
theorem serializeWriteResponses : Obligations.SerializeWriteResponses := by
  intro s h a v b hl
  have hb := wordBytes_coilWord b
  refine
    ⟨renders_pair rfl rfl nofun rfl rfl hb hl, renders_pair rfl rfl nofun rfl rfl hb hl, ?_, ?_, ?_, ?_, ?_, ?_⟩ <;>
    exact renders_pair rfl rfl nofun rfl rfl rfl hl

end Sys2Proof.Machine
end

section
/-! SUPPORT. The bit packer and unpacker (40_bitpack.md): the whole results bit by bit, one the inverse of the other, and
the streams over the working state. -/

namespace Sys2Proof.Machine

/-! ## PACK, byte by byte -/

theorem byteAt_packBits {bits : List Bool} {k : Nat} (h : k < ceil8 bits.length) :
    byteAt (packBits bits) k = packByte bits k := by
  simp [byteAt, packBits_getElem? bits k h]

theorem packByte_getLsbD_of_lt (bits : List Bool) (k : Nat) {j : Nat} (hj : j < 8) :
    (packByte bits k).getLsbD j = bits.getD (8 * k + j) false := by
  rw [packByte_getLsbD, decide_eq_true hj, Bool.true_and]

/-- Two packed bytes are equal where the eight elements they stand for are. -/
theorem packByte_congr {s t : List Bool} {k l : Nat}
    (h : ∀ j < 8, s.getD (8 * k + j) false = t.getD (8 * l + j) false) : packByte s k = packByte t l := by
  refine BitVec.eq_of_getLsbD_eq fun j hj => ?_
  rw [packByte_getLsbD_of_lt s k hj, packByte_getLsbD_of_lt t l hj, h j hj]

/-- Eight elements in front are one byte in front. -/
theorem packBits_append_of_length_eq_eight {s : List Bool} (hs : s.length = 8) (t : List Bool) :
    packBits (s ++ t) = packByte s 0 :: packBits t := by
  have hlen : ceil8 (s ++ t).length = ceil8 t.length + 1 := by
    rw [List.length_append, hs, ceil8, ceil8]
    omega
  have hfirst : packByte (s ++ t) 0 = packByte s 0 :=
    packByte_congr fun j hj => List.getD_append s t false _ (by omega)
  have hrest (k : Nat) : packByte (s ++ t) (k + 1) = packByte t k := packByte_congr fun j hj => by
    rw [List.getD_append_right s t false _ (by omega), hs, show 8 * (k + 1) + j - 8 = 8 * k + j by omega]
  rw [packBits, hlen, List.range_succ_eq_map, List.map_cons, List.map_map, hfirst]
  exact congrArg _ (List.map_congr_left fun k _ => hrest k)

/-- Settles O24: the check of `BITS_CAP`, and the bits of a packed byte, which are `false` past the last element. -/
theorem packDeliversPackedBits : Obligations.PackDeliversPackedBits := by
  intro s bits
  refine ⟨guardValues_of_fits _ s _, guardValues_of_not_fits _ s _, packBits_length bits, fun k j hk hj => ?_, rfl⟩
  rw [byteAt_packBits hk, packByte_getLsbD_of_lt bits k hj]
  by_cases h : 8 * k + j < bits.length
  · rw [decide_eq_true h, Bool.true_and]
  · rw [decide_eq_false h, Bool.false_and, List.getD_eq_default _ _ (Nat.not_lt.1 h)]

/-! ## UNPACK and UNPACK_MAX -/

/-- Settles O25: the check of `IN_CAP`, and element `i` of UNPACK. -/
theorem unpackDeliversBits : Obligations.UnpackDeliversBits := fun s d =>
  ⟨guardInput_of_fits d s _, guardInput_of_not_fits d s _, unpackBytes_length d, unpackBytes_getElem? d, rfl⟩

/-- Settles O26: the check of `IN_CAP`; what is delivered is the truncated UNPACK. -/
theorem unpackMaxTruncates : Obligations.UnpackMaxTruncates := fun s d m =>
  ⟨fun h => ⟨unpackBytesMax d m, guardInput_of_fits d s _ h, rfl, unpackBytesMax_length d m⟩, rfl⟩

/-! ## One the inverse of the other -/

theorem padBits_getElem? {s : List Bool} {i : Nat} (h : i < 8 * ceil8 s.length) :
    (padBits s)[i]? = some (s.getD i false) := by
  by_cases hi : i < s.length
  · simp [padBits, List.getElem?_append_left hi, hi]
  · have hpad : i - s.length < ceil8 s.length * 8 - s.length := by omega
    simp [padBits, List.getElem?_append_right (Nat.not_lt.1 hi), hi, hpad]

/-- UNPACK after PACK pads: element `i` of both sides is element `i` of the sequence, or `false` past its end. -/
theorem unpackBytes_packBits (bits : List Bool) : unpackBytes (packBits bits) = padBits bits := by
  refine List.ext_getElem?' fun i hi => ?_
  rw [unpackBytes_length, packBits_length, padBits_length, Nat.max_self] at hi
  have hget : (unpackBytes (packBits bits))[i]? = some ((byteAt (packBits bits) (i / 8)).getLsbD (i % 8)) :=
    unpackBytes_getElem? _ i (by rwa [packBits_length])
  rw [hget, padBits_getElem? hi, byteAt_packBits (by omega), packByte_getLsbD_of_lt _ _ (Nat.mod_lt i (by decide)),
    Nat.div_add_mod]

theorem take_length_padBits (s : List Bool) : (padBits s).take s.length = s := List.take_left

theorem packByte_byteBits (b : Byte) : packByte (byteBits b) 0 = b := by
  refine BitVec.eq_of_getLsbD_eq fun j hj => ?_
  rw [packByte_getLsbD_of_lt _ _ hj]
  simp [byteBits_getElem? b j hj]

/-- PACK after UNPACK gives the bytes back, one byte at a time. -/
theorem packBits_unpackBytes (d : List Byte) : packBits (unpackBytes d) = d := by
  induction d with
  | nil => rfl
  | cons b d ih =>
    rw [unpackBytes_cons, packBits_append_of_length_eq_eight (byteBits_length b), packByte_byteBits, ih]

/-- Settles O27: UNPACK after PACK is padding, which the first `len(s)` elements do not see. -/
theorem packUnpackLossless : Obligations.PackUnpackLossless := by
  refine ⟨unpackBytes_packBits, fun bits h => ?_, packBits_unpackBytes⟩
  have hcount : (BitVec.ofNat 16 bits.length).toNat = bits.length :=
    (BitVec.toNat_ofNat _ _).trans (Nat.mod_eq_of_lt (by omega))
  rw [unpackBytesMax, hcount, unpackBytes_packBits, take_length_padBits]

/-! ## The streams over the working state -/

theorem val_bitPos_add_one {p : Fin 8} (h : p ≠ 7) : (p + 1).val = p.val + 1 :=
  Fin.val_add_one_of_lt (Fin.lt_last_iff_ne_last.2 h)

/-- The packer's registers (R27) hold `pre`: the elements taken in since the last full byte. -/
def WorkingState.HoldsBits (w : WorkingState) (pre : List Bool) : Prop :=
  w.bitPos.val = pre.length ∧ w.packAcc = packByte pre 0

theorem WorkingState.start_holdsBits : WorkingState.start.HoldsBits [] := ⟨rfl, rfl⟩

/-- Element `j`, read as `false` past the end, after one more element. -/
theorem getD_concat_false (s : List Bool) (b : Bool) (j : Nat) :
    (s ++ [b]).getD j false = (s.getD j false || (b && decide (s.length = j))) := by
  obtain hlt | rfl | hgt := Nat.lt_trichotomy j s.length
  · rw [List.getD_append _ _ _ _ hlt, decide_eq_false hlt.ne', Bool.and_false, Bool.or_false]
  · simp
  · have hlen : (s ++ [b]).length ≤ j := by simpa using hgt
    rw [List.getD_eq_default _ _ hlen, List.getD_eq_default _ _ hgt.le, decide_eq_false hgt.ne, Bool.and_false,
      Bool.or_false]

/-- One more element sets the bit at its own place, if it is true. -/
theorem packByte_concat {pre : List Bool} (h : pre.length < 8) (b : Bool) :
    packByte (pre ++ [b]) 0 = if b then packByte pre 0 ||| (1#8 <<< pre.length) else packByte pre 0 := by
  refine BitVec.eq_of_getLsbD_eq fun j hj => ?_
  have hplace : (1#8 <<< pre.length).getLsbD j = (decide (pre.length < 8) && decide (pre.length = j)) :=
    BitVec.getLsbD_twoPow pre.length j
  have hbit (s : List Bool) : (packByte s 0).getLsbD j = s.getD j false := by
    rw [packByte_getLsbD_of_lt s 0 hj, Nat.mul_zero, Nat.zero_add]
  rw [hbit, getD_concat_false]
  cases b with
  | false => rw [if_neg nofun, hbit, Bool.false_and, Bool.or_false]
  | true => rw [if_pos rfl, BitVec.getLsbD_or, hplace, hbit, decide_eq_true h]

/-- One more element either fills the byte, which is delivered, or is held with those before it. -/
theorem packBit_of_holdsBits {w : WorkingState} {pre : List Bool} (hw : w.HoldsBits pre) (b : Bool) :
    ((pre ++ [b]).length = 8 ∧ ∃ w', packBit w b = (w', [packByte (pre ++ [b]) 0]) ∧ w'.HoldsBits []) ∨
    ∃ w', packBit w b = (w', []) ∧ w'.HoldsBits (pre ++ [b]) := by
  obtain ⟨hpos, hacc⟩ := hw
  have hbyte := packByte_concat (hpos ▸ w.bitPos.isLt) b
  rw [← hpos, ← hacc] at hbyte
  rw [hbyte, List.length_append, ← hpos]
  by_cases h7 : w.bitPos = 7
  · exact .inl ⟨by rw [h7]; rfl, _, if_pos h7, rfl, rfl⟩
  · refine .inr ⟨_, if_neg h7, ?_, hbyte.symm⟩
    rw [List.length_append, ← hpos]
    exact val_bitPos_add_one h7

/-- A byte that is not full yet: it is delivered if there is anything in it. -/
theorem packFlush_of_holdsBits {w : WorkingState} {pre : List Bool} (hw : w.HoldsBits pre) :
    packFlush w = packBits pre := by
  obtain ⟨hpos, hacc⟩ := hw
  cases pre with
  | nil => exact if_pos (Fin.ext hpos)
  | cons b pre =>
    have hne : w.bitPos ≠ 0 := fun h => by simp [h] at hpos
    have hone : ceil8 (b :: pre).length = 1 := by
      have := w.bitPos.isLt
      rw [ceil8, ← hpos]
      rw [List.length_cons] at hpos
      omega
    rw [packFlush, if_neg hne, hacc, packBits, hone]
    rfl

/-- The packer goes on from the elements it holds. -/
theorem packStream_of_holdsBits {w : WorkingState} {pre : List Bool} (hw : w.HoldsBits pre) (bits : List Bool) :
    packStream w bits = packBits (pre ++ bits) := by
  induction bits generalizing w pre with
  | nil => rw [packStream, packFlush_of_holdsBits hw, List.append_nil]
  | cons b bits ih =>
    rw [packStream, List.append_cons]
    obtain ⟨hfull, w', hbit, hw'⟩ | ⟨w', hbit, hw'⟩ := packBit_of_holdsBits hw b
    · rw [hbit, packBits_append_of_length_eq_eight hfull, ih hw']
      rfl
    · rw [hbit, ih hw']
      rfl

/-- The index of the element the unpacker's registers (R27) point at. -/
def WorkingState.unpackIndex (w : WorkingState) : Nat := 8 * w.byteIndex + w.bitPos.val

theorem WorkingState.unpackIndex_div (w : WorkingState) : w.unpackIndex / 8 = w.byteIndex := by
  rw [unpackIndex, Nat.mul_add_div (by decide), Nat.div_eq_of_lt w.bitPos.isLt, Nat.add_zero]

theorem WorkingState.unpackIndex_mod (w : WorkingState) : w.unpackIndex % 8 = w.bitPos.val := by
  rw [unpackIndex, Nat.mul_add_mod, Nat.mod_eq_of_lt w.bitPos.isLt]

/-- The unpacker points at an element exactly where it points into a byte. -/
theorem WorkingState.unpackIndex_lt_iff (w : WorkingState) (d : List Byte) :
    w.unpackIndex < (unpackBytes d).length ↔ w.byteIndex < d.length := by
  rw [unpackBytes_length, Nat.mul_comm, ← Nat.div_lt_iff_lt_mul (by decide), unpackIndex_div]

/-- Where there is an element, the unpacker gives it and points at the next one. -/
theorem unpackBit_of_lt {d : List Byte} {w : WorkingState} (h : w.unpackIndex < (unpackBytes d).length) :
    ∃ w', unpackBit d w = some ((unpackBytes d)[w.unpackIndex], w') ∧ w'.unpackIndex = w.unpackIndex + 1 := by
  have hget := unpackBytes_getElem? d w.unpackIndex (unpackBytes_length d ▸ h)
  rw [List.getElem?_eq_getElem h, w.unpackIndex_div, w.unpackIndex_mod] at hget
  rw [Option.some.inj hget]
  refine ⟨_, if_pos ((w.unpackIndex_lt_iff d).1 h), ?_⟩
  by_cases h7 : w.bitPos = 7
  · rw [if_pos h7, WorkingState.unpackIndex, WorkingState.unpackIndex, h7]
    rfl
  · rw [if_neg h7, WorkingState.unpackIndex, WorkingState.unpackIndex, val_bitPos_add_one h7]
    rfl

/-- At the end of the elements the unpacker gives nothing. -/
theorem unpackBit_of_le {d : List Byte} {w : WorkingState} (h : (unpackBytes d).length ≤ w.unpackIndex) :
    unpackBit d w = none :=
  if_neg ((w.unpackIndex_lt_iff d).not.1 (Nat.not_lt.2 h))

/-- The unpacker gives the elements from the one it points at on, until there are none. -/
theorem unpackStream_eq_take_drop (d : List Byte) (n : Nat) (w : WorkingState) :
    unpackStream d n w = ((unpackBytes d).drop w.unpackIndex).take n := by
  induction n generalizing w with
  | zero => rfl
  | succ n ih =>
    rw [unpackStream]
    by_cases h : w.unpackIndex < (unpackBytes d).length
    · obtain ⟨w', hbit, hnext⟩ := unpackBit_of_lt h
      rw [hbit, List.drop_eq_getElem_cons h, List.take_succ_cons, ← hnext, ← ih w']
    · have hend := Nat.not_lt.1 h
      rw [unpackBit_of_le hend, List.drop_eq_nil_of_le hend, List.take_nil]

/-- The bytes go through the CRC accumulator as through `crcFold` (R26, R101). -/
theorem foldl_crcByte_crc (d : List Byte) (w : WorkingState) : (d.foldl crcByte w).crc = crcFold w.crc d :=
  (List.foldl_hom WorkingState.crc crcByte_crc).symm

/-- Settles O28: the packer starts with no element held, the unpacker at element 0, the accumulator at the seed. -/
theorem streamsGiveWholeResults : Obligations.StreamsGiveWholeResults :=
  ⟨packStream_of_holdsBits WorkingState.start_holdsBits, fun d n => unpackStream_eq_take_drop d n WorkingState.start,
    fun d => foldl_crcByte_crc d WorkingState.start⟩

end Sys2Proof.Machine
end

section
/-! SUPPORT. The CRC-16 (41_crc16.md): CRC16, the byte update as an iterated round and its bit-reversed form, the zero
residue of a sequence with its CRC, and the detection of one changed byte. -/

namespace Sys2Proof.Machine

/-- Settles O19: the check of `IN_CAP`. -/
theorem crc16DeliversCompute : Obligations.Crc16DeliversCompute := fun s d => guardInput_of_fits d s _

/-! ## The byte update -/

theorem crcUpdate_eq_iterate (c : Word) (b : Byte) : crcUpdate c b = crcRound^[8] (c ^^^ b.setWidth 16) := rfl

/-- Settles O20: the update is the iterated round, the last byte is the last one folded, and `compute` swaps the bytes. -/
theorem crcFollowsAlgorithm : Obligations.CrcFollowsAlgorithm :=
  ⟨crcUpdate_eq_iterate, rfl, fun d b => crcFinal_append d [b], fun _ => rfl⟩

/-! ## The bit-reversed form -/

theorem reverse_xor {n : Nat} (x y : BitVec n) : (x ^^^ y).reverse = x.reverse ^^^ y.reverse :=
  BitVec.eq_of_getMsbD_eq fun i _ => by simp only [BitVec.getMsbD_xor, BitVec.getMsbD_reverse, BitVec.getLsbD_xor]

theorem reverse_ushiftRight {n : Nat} (x : BitVec n) (k : Nat) : (x >>> k).reverse = x.reverse <<< k :=
  BitVec.eq_of_getMsbD_eq fun i _ => by
    simp only [BitVec.getMsbD_shiftLeft, BitVec.getMsbD_reverse, BitVec.getLsbD_ushiftRight, Nat.add_comm]

/-- A byte in the low half is, reversed, the reversed byte in the high half. -/
theorem reverse_setWidth_byte (b : Byte) : (b.setWidth 16).reverse = b.reverse.setWidth 16 <<< 8 :=
  BitVec.eq_of_getMsbD_eq fun i hi => by
    rw [BitVec.getMsbD_shiftLeft, BitVec.getMsbD_reverse, BitVec.getLsbD_setWidth, BitVec.getMsbD_setWidth]
    simp [hi, BitVec.getMsbD_reverse]

/-- 0xA001 is 0x8005 reversed, and a shift to the right is, reversed, one to the left (R101). -/
theorem reverse_crcRound (c : Word) : (crcRound c).reverse = msbRound c.reverse := by
  rw [crcRound, msbRound, BitVec.msb_reverse]
  split
  · rw [reverse_xor, reverse_ushiftRight]
    rfl
  · exact reverse_ushiftRight c 1

/-- Settles O21: reversal carries each of the eight rounds over. -/
theorem crcIsReflectedPolynomial : Obligations.CrcIsReflectedPolynomial := fun c b =>
  calc (crcUpdate c b).reverse
    _ = msbRound^[8] (c ^^^ b.setWidth 16).reverse := Function.Semiconj.iterate_right reverse_crcRound 8 _
    _ = msbRound^[8] (c.reverse ^^^ (b.reverse.setWidth 16 <<< 8)) := by rw [reverse_xor, reverse_setWidth_byte]

/-! ## The residue -/

/-- Over clear low bits the rounds only shift. -/
theorem crcRound_iterate_of_low_bits_clear (n : Nat) (c : Word) (h : ∀ i < n, c.getLsbD i = false) :
    crcRound^[n] c = c >>> n := by
  induction n generalizing c with
  | zero => rfl
  | succ n ih =>
    have hround : crcRound c = c >>> 1 := if_neg (by rw [h 0 n.succ_pos]; exact Bool.false_ne_true)
    rw [Function.iterate_succ_apply, hround, ih, ← BitVec.shiftRight_add, Nat.add_comm]
    exact fun i hi => by rw [BitVec.getLsbD_ushiftRight, Nat.add_comm, h (i + 1) (by omega)]

/-- The accumulator's own low byte clears its low half, and its high byte moves down. -/
theorem crcUpdate_lo8 (c : Word) : crcUpdate c (lo8 c) = (hi8 c).setWidth 16 := by
  rw [crcUpdate_eq_iterate, crcRound_iterate_of_low_bits_clear]
  · refine BitVec.eq_of_getLsbD_eq fun i hi => ?_
    rw [BitVec.getLsbD_ushiftRight, BitVec.getLsbD_xor, BitVec.getLsbD_setWidth, BitVec.getLsbD_setWidth, lo8_getLsbD,
      hi8_getLsbD]
    by_cases h8 : i < 8
    · simp [hi, h8]
    · simp [h8, BitVec.getLsbD_of_ge c (8 + i) (by omega)]
  · intro i hi
    rw [BitVec.getLsbD_xor, BitVec.getLsbD_setWidth, lo8_getLsbD]
    simp [hi, show i < 16 by omega]

/-- A byte equal to the whole accumulator leaves zero. -/
theorem crcUpdate_setWidth_self (b : Byte) : crcUpdate (b.setWidth 16) b = 0 := by
  rw [crcUpdate_eq_iterate, BitVec.xor_self]
  exact Function.iterate_fixed rfl 8

/-- Settles O22: the two wire bytes are the accumulator's low and high byte, and each clears its own half. -/
theorem crcResidueIsZero : Obligations.CrcResidueIsZero := fun d => by
  rw [crcFinal_append, compute, hi8_swap16, lo8_swap16, crcFold_cons, crcFold_cons, crcFold_nil, crcUpdate_lo8,
    crcUpdate_setWidth_self]

/-! ## One changed byte -/

/-- Two sequences that differ in one byte take an accumulator to different values. -/
theorem crcFold_set_ne {d : List Byte} {i : Nat} {b : Byte} (hi : i < d.length) (hb : byteAt d i ≠ b) (c : Word) :
    crcFold c (d.set i b) ≠ crcFold c d := by
  induction d generalizing i c with
  | nil => exact absurd hi (Nat.not_lt_zero i)
  | cons x d ih =>
    cases i with
    | zero => exact fun h => hb (crcUpdate_byte_injective c (crcFold_injective d h)).symm
    | succ i => exact ih (Nat.lt_of_succ_lt_succ hi) hb (crcUpdate c x)

/-- A span two bytes longer than `n` is its first `n` bytes and the word behind them. -/
theorem take_append_wordBytes {e : List Byte} {n : Nat} (h : e.length = n + 2) :
    e.take n ++ wordBytes (wordAt e n) = e := by
  have hword : wordBytes (wordAt e n) = [e[n], e[n + 1]] := by
    rw [wordBytes, wordAt, hi8_be16, lo8_be16, byteAt, byteAt, List.getD_eq_getElem, List.getD_eq_getElem]
  have hdrop : e.drop n = [e[n], e[n + 1]] := by
    rw [List.drop_eq_getElem_cons, List.drop_eq_getElem_cons, List.drop_eq_nil_of_le h.le]
  rw [hword, ← hdrop, List.take_append_drop]

/-- Settles O23: a span that passes the comparison has residue zero (R104), and one changed byte changes the residue. -/
theorem crcDetectsOneChangedByte : Obligations.CrcDetectsOneChangedByte := by
  intro d i b hi hb hpass
  have hset := crcFold_set_ne (by simpa using hi) hb crcSeed
  have hlen : ((d ++ wordBytes (compute d)).set i b).length = d.length + 2 := by simp
  rw [← take_append_wordBytes hlen, hpass] at hset
  exact hset ((crcResidueIsZero _).trans (crcResidueIsZero d).symm)

end Sys2Proof.Machine
end

section
/-! SUPPORT. PARSE (42_parse.md), step by step: the rows of its dispatch, the four families of sub-parsers and what each
answers, and step S4. -/

namespace Sys2Proof

theorem FunctionCode.ofByte?_eq_none_iff_notMem (b : Byte) :
    FunctionCode.ofByte? b = none ↔ b ∉ ([0x01, 0x02, 0x03, 0x04, 0x05, 0x06, 0x0F, 0x10] : List Byte) := by
  rw [← Option.not_isSome_iff_eq_none, FunctionCode.ofByte?_isSome_iff]
  rfl

end Sys2Proof

namespace Sys2Proof.Machine

/-! ## Completion -/

/-- An instruction that is a row of PARSE delivers the parser's result on PARSE's span. -/
theorem exec_parseRow {i : Instr} {d : List Byte} (hi : i.wf = true) (hc : i.toCommand = .parse d) {s : State}
    (hd : withinCap s.params.inCap d.length = true) :
    exec i s = .next { s with result := some (.parsed (parseFrame d)), work := WorkingState.start } := by
  rw [rowsRunTheirCommand i s hi, hc]
  exact completeParse_of_fits d (parseFrame d) s hd

/-- Settles O29: PARSE and the nine rows of its dispatch are the rows of PARSE. -/
theorem parseAndItsRowsComplete : Obligations.ParseAndItsRowsComplete := fun _ =>
  ⟨fun _ => exec_parseRow rfl rfl, fun _ fc rest =>
    ⟨exec_parseRow rfl rfl, exec_parseRow rfl rfl, exec_parseRow rfl rfl, exec_parseRow rfl rfl,
      exec_parseRow rfl rfl, exec_parseRow rfl rfl, exec_parseRow rfl rfl, exec_parseRow rfl rfl,
      fun hfc => exec_parseRow (i := .parseIllegalFunction _ fc rest) (Option.isNone_iff_eq_none.2 hfc) rfl⟩⟩

/-! ## The steps of PARSE -/

/-- Step S1 (R111). -/
theorem parseFrame_of_short {d : List Byte} (h : d.length < 4) : parseFrame d = needMoreBytes :=
  parseWith_of_short _ d h

/-- The immediate result of the sub-parser is PARSE's, and waiting for bytes is PARSE's result on spans of every
length. -/
theorem parseFrame_of_error {d : List Byte} {r : ParseResult} (hd : 4 ≤ d.length ∨ r = needMoreBytes)
    (e : subParserOf (byteAt d 1) d = .error r) : parseFrame d = r := by
  by_cases h4 : 4 ≤ d.length
  · exact parseWith_of_error _ d r h4 e
  · rw [hd.resolve_left h4, parseFrame_of_short (Nat.not_le.1 h4)]

/-- The sub-parser's payload goes on to step S4. -/
theorem parseFrame_of_ok {d : List Byte} {pl : Payload} {p : Nat} (h : 4 ≤ d.length)
    (e : subParserOf (byteAt d 1) d = .ok (pl, p)) : parseFrame d = checkCrc d pl p :=
  parseWith_of_ok _ d pl p h e

/-- Settles O30: step S1. -/
theorem parseNeedsFourBytes : Obligations.ParseNeedsFourBytes := fun d h =>
  (parsesTo_iff d _).2 (parseFrame_of_short h)

theorem parsesTo_needMoreBytes {d : List Byte} (e : subParserOf (byteAt d 1) d = .error needMoreBytes) :
    ParsesTo d needMoreBytes := (parsesTo_iff d _).2 (parseFrame_of_error (.inr rfl) e)

/-- Step S4 (R124 to R126) after a sub-parser that goes on to it. -/
theorem endsByCrc_of_ok {d : List Byte} {pl : Payload} {p : Nat} (h : 4 ≤ d.length)
    (e : subParserOf (byteAt d 1) d = .ok (pl, p)) : EndsByCrc d (headerOf d) pl p := by
  rw [EndsByCrc, parsesTo_iff, parsesTo_iff, parsesTo_iff, parseFrame_of_ok h e]
  refine ⟨fun hl => if_pos hl, fun hl hw => ?_, fun hl hw => ?_⟩
  · exact (if_neg (Nat.not_lt.2 hl)).trans (if_pos hw)
  · exact (if_neg (Nat.not_lt.2 hl)).trans (if_neg (not_not.2 hw))

/-! ## What each sub-parser answers -/

theorem subRead_of_short {d : List Byte} (h : d.length < 6) (mk : Word → Word → Payload) :
    subRead mk d = .error needMoreBytes := if_pos h

theorem subRead_of_le {d : List Byte} (h : 6 ≤ d.length) (mk : Word → Word → Payload) :
    subRead mk d = .ok (mk (wordAt d 2) (wordAt d 4), 6) := if_neg (Nat.not_lt.2 h)

theorem subWriteCoil_of_short {d : List Byte} (h : d.length < 6) : subWriteCoil d = .error needMoreBytes := if_pos h

/-- A legal coil value (R116, D11). -/
theorem subWriteCoil_of_coilWord {d : List Byte} (h : 6 ≤ d.length) {v : Bool} (hv : wordAt d 4 = coilWord v) :
    subWriteCoil d = .ok (.writeCoilRequest (wordAt d 2) v, 6) := by
  rw [subWriteCoil, if_neg (Nat.not_lt.2 h), hv]
  cases v <;> rfl

/-- An illegal coil value (R116, R123). -/
theorem subWriteCoil_of_illegal {d : List Byte} (h : 6 ≤ d.length)
    (hv : wordAt d 4 ≠ 0xFF00 ∧ wordAt d 4 ≠ 0x0000) :
    subWriteCoil d = .error (rejectWith d .illegalDataValue 2) := by
  rw [subWriteCoil, if_neg (Nat.not_lt.2 h), if_neg hv.1, if_neg hv.2]

theorem subWriteMultiple_of_short {d : List Byte} (h : d.length < 7) (mk : Word → Word → List Byte → Payload) :
    subWriteMultiple mk d = .error needMoreBytes := if_pos h

/-- The byte-count overrun (R118). -/
theorem subWriteMultiple_of_overrun {d : List Byte} (h : 7 ≤ d.length) (hb : d.length < 7 + (byteAt d 6).toNat)
    (mk : Word → Word → List Byte → Payload) :
    subWriteMultiple mk d = .error { code := .illegalDataValue, frame := none, bytesRead := 0 } :=
  (if_neg (Nat.not_lt.2 h)).trans (if_pos hb)

theorem subWriteMultiple_of_le {d : List Byte} (hb : 7 + (byteAt d 6).toNat ≤ d.length)
    (mk : Word → Word → List Byte → Payload) :
    subWriteMultiple mk d =
      .ok (mk (wordAt d 2) (wordAt d 4) (memRead d 7 (byteAt d 6).toNat), 7 + (byteAt d 6).toNat) :=
  (if_neg (by omega)).trans (if_neg (Nat.not_lt.2 hb))

/-! ## The families of function codes -/

/-- The dispatch (R113): the codes whose payload is two words of any value, WriteSingleCoil, the write-multiple codes,
and the bytes that are no function code. -/
theorem subParserOf_family (fc : Byte) :
    (fc ∈ ([0x01, 0x02, 0x03, 0x04, 0x06] : List Byte) ∧ ∃ mk, subParserOf fc = subRead mk) ∨
    (fc = 0x05 ∧ subParserOf fc = subWriteCoil) ∨
    (fc ∈ ([0x0F, 0x10] : List Byte) ∧ ∃ mk, subParserOf fc = subWriteMultiple mk) ∨
    (fc ∉ ([0x01, 0x02, 0x03, 0x04, 0x05, 0x06, 0x0F, 0x10] : List Byte) ∧ subParserOf fc = subIllegalFunction) := by
  induction fc using functionCodeByte_cases with
  | known c =>
    cases c with
    | readCoils | readDiscreteInputs | readHoldingRegisters | readInputRegisters | writeSingleHoldingRegister =>
      exact .inl ⟨by decide, _, rfl⟩
    | writeSingleCoil => exact .inr (.inl ⟨rfl, rfl⟩)
    | writeMultipleCoils | writeMultipleHoldingRegisters => exact .inr (.inr (.inl ⟨by decide, _, rfl⟩))
  | unknown fc h =>
    exact .inr (.inr (.inr ⟨(FunctionCode.ofByte?_eq_none_iff_notMem fc).1 h, subParserOf_of_ofByte?_none h⟩))

/-! ## The families, from the header on -/

/-- Settles O31: each family's sub-parser waits for its fixed bytes. -/
theorem parseNeedsFixedPayloadBytes : Obligations.ParseNeedsFixedPayloadBytes := by
  intro slave fc rest h
  refine parsesTo_needMoreBytes (d := slave :: fc :: rest) ?_
  have hlen : (slave :: fc :: rest).length = rest.length + 2 := rfl
  show subParserOf fc _ = _
  obtain ⟨hfc, mk, hsub⟩ | ⟨rfl, hsub⟩ | ⟨hfc, mk, hsub⟩ | ⟨hfc, hsub⟩ := subParserOf_family fc
  · rw [hsub]
    exact subRead_of_short (by grind) mk
  · rw [hsub]
    exact subWriteCoil_of_short (by grind)
  · rw [hsub]
    exact subWriteMultiple_of_short (by grind) mk
  · grind

/-- Settles O32: the sub-parser of each of the four codes is the read family's, with the code's own request. -/
theorem parseReadFamily : Obligations.ParseReadFamily := by
  intro slave fc b2 b3 b4 b5 tail mk h
  have hsub : subParserOf fc = subRead mk := by
    obtain ⟨rfl, rfl⟩ | ⟨rfl, rfl⟩ | ⟨rfl, rfl⟩ | ⟨rfl, rfl⟩ := h <;> rfl
  have hlen : 6 ≤ (slave :: fc :: b2 :: b3 :: b4 :: b5 :: tail).length := by simp
  exact endsByCrc_of_ok (by omega) ((congrFun hsub _).trans (subRead_of_le hlen mk))

/-- Settles O33: the legal coil values, the illegal ones, and WriteSingleHoldingRegister as a code of two free words. -/
theorem parseWriteSingleFamily : Obligations.ParseWriteSingleFamily := by
  intro slave b2 b3 b4 b5 tail
  have hlen (fc : Byte) : 6 ≤ (slave :: fc :: b2 :: b3 :: b4 :: b5 :: tail).length := by simp
  have coil (v : Bool) (hv : be16 b4 b5 = coilWord v) :=
    endsByCrc_of_ok (d := slave :: 0x05 :: b2 :: b3 :: b4 :: b5 :: tail) (by simp)
      (subWriteCoil_of_coilWord (hlen 0x05) hv)
  refine ⟨coil true, coil false, fun h1 h0 => ?_, ?_⟩
  · exact (parsesTo_iff _ _).2 (parseFrame_of_error (.inl (by simp)) (subWriteCoil_of_illegal (hlen 0x05) ⟨h1, h0⟩))
  · exact endsByCrc_of_ok (by simp) (subRead_of_le (hlen 0x06) .writeRegisterRequest)

/-- Settles O34: both write-multiple codes have the overrun check. -/
theorem parseByteCountOverrun : Obligations.ParseByteCountOverrun := by
  intro slave fc b2 b3 b4 b5 bc rest hfc hrest
  refine (parsesTo_iff _ _).2 (parseFrame_of_error (.inl (by simp)) ?_)
  have overrun (mk) := subWriteMultiple_of_overrun (d := slave :: fc :: b2 :: b3 :: b4 :: b5 :: bc :: rest) (by simp)
    (by simp [byteAt]; omega) mk
  obtain rfl | rfl : fc = 0x0F ∨ fc = 0x10 := by simpa using hfc
  · exact overrun coilsPayload
  · exact overrun registersPayload

/-- A write-multiple sub-parser on a span with all its data (R117). -/
theorem subWriteMultiple_cons {bc : Byte} {data : List Byte} (h : data.length = bc.toNat)
    (mk : Word → Word → List Byte → Payload) (slave fc b2 b3 b4 b5 : Byte) (tail : List Byte) :
    subWriteMultiple mk (slave :: fc :: b2 :: b3 :: b4 :: b5 :: bc :: (data ++ tail)) =
      .ok (mk (be16 b2 b3) (be16 b4 b5) data, 7 + bc.toNat) := by
  have hmem : memRead (slave :: fc :: b2 :: b3 :: b4 :: b5 :: bc :: (data ++ tail)) 7 bc.toNat = data :=
    List.take_left' h
  refine (subWriteMultiple_of_le ?_ mk).trans ?_
  · simp [byteAt, h, Nat.add_comm 7]
  · exact congrArg (fun x => Except.ok (mk (be16 b2 b3) (be16 b4 b5) x, 7 + bc.toNat)) hmem

/-- Settles O35: the values are UNPACK_MAX of the data (R92), whose length and elements are known. -/
theorem parseWriteMultipleCoils : Obligations.ParseWriteMultipleCoils := by
  intro slave b2 b3 b4 b5 bc data tail h
  refine ⟨unpackBytesMax data (be16 b4 b5), h ▸ unpackBytesMax_length data _, fun i hi => ?_, ?_⟩
  · rw [unpackBytesMax_length, lt_min_iff] at hi
    rw [unpackBytesMax, List.getElem?_take_of_lt hi.1]
    exact unpackBytes_getElem? data i hi.2
  · exact endsByCrc_of_ok (by simp) (subWriteMultiple_cons h coilsPayload slave 0x0F b2 b3 b4 b5 tail)

theorem wordsOf_length : ∀ d : List Byte, (wordsOf d).length = d.length / 2
  | [] => rfl
  | [_] => by simp [wordsOf]
  | h :: l :: rest => by
    rw [wordsOf, List.length_cons, wordsOf_length rest, List.length_cons, List.length_cons]
    omega

/-- Value `i` of the register data is the word at byte `2i` (R74, R120). -/
theorem wordsOf_getElem? : ∀ {d : List Byte} {i : Nat}, i < d.length / 2 → (wordsOf d)[i]? = some (wordAt d (2 * i))
  | [], _, hi => absurd hi (by simp)
  | [_], _, hi => absurd hi (by simp)
  | _ :: _ :: _, 0, _ => rfl
  | h :: l :: rest, i + 1, hi => by
    rw [wordsOf, List.getElem?_cons_succ, wordsOf_getElem? (d := rest) (by simp at hi; omega)]
    rfl

/-- Settles O36: the values are the words of the data. -/
theorem parseWriteMultipleRegisters : Obligations.ParseWriteMultipleRegisters := by
  intro slave b2 b3 b4 b5 bc data tail h
  refine ⟨wordsOf data, h ▸ wordsOf_length data, fun i hi => wordsOf_getElem? (wordsOf_length data ▸ hi), ?_⟩
  exact endsByCrc_of_ok (by simp) (subWriteMultiple_cons h registersPayload slave 0x10 b2 b3 b4 b5 tail)

/-- Settles O37: a byte outside the eight codes is rejected by its own sub-parser. -/
theorem parseUnknownFunctionCode : Obligations.ParseUnknownFunctionCode := by
  intro slave fc rest hrest hfc
  have hsub := subParserOf_of_ofByte?_none ((FunctionCode.ofByte?_eq_none_iff_notMem fc).2 hfc)
  exact (parsesTo_iff _ _).2 (parseFrame_of_error (.inl (by simpa using hrest)) (congrFun hsub _))

end Sys2Proof.Machine
end

section
/-! SUPPORT. What PARSE (42_parse.md) can answer, path by path, and what its answer depends on. -/

namespace Sys2Proof.Machine

/-! ## The paths of PARSE -/

/-- Where the fixed payload bytes of the span's function code end (R122). -/
def fixedEnd (d : List Byte) : Nat := if byteAt d 1 ∈ ([0x0F, 0x10] : List Byte) then 7 else 6

/-- The payload end `p` of the span's function code (R114, R115, R117). -/
def payloadEnd (d : List Byte) : Nat := if byteAt d 1 ∈ ([0x0F, 0x10] : List Byte) then 7 + (byteAt d 6).toNat else 6

/-- The span's coil value is none of the two legal ones (R116, D11). -/
def IllegalCoil (d : List Byte) : Prop := byteAt d 1 = 0x05 ∧ wordAt d 4 ≠ 0xFF00 ∧ wordAt d 4 ≠ 0x0000

theorem payloadEnd_mem_range (d : List Byte) : 6 ≤ payloadEnd d ∧ payloadEnd d ≤ 262 := by
  have := (byteAt d 6).isLt
  unfold payloadEnd
  split <;> omega

/-- What the sub-parser of the span's function code answers, each answer with what it says of the span. -/
inductive SubParserOutcome (d : List Byte) : Except ParseResult (Payload × Nat) → Prop
  | wait (hlen : d.length < payloadEnd d) : SubParserOutcome d (.error needMoreBytes)
  | overrun (hlen : d.length < payloadEnd d) :
    SubParserOutcome d (.error { code := .illegalDataValue, frame := none, bytesRead := 0 })
  | illegalValue (hlen : 6 ≤ d.length) (hv : IllegalCoil d) :
    SubParserOutcome d (.error (rejectWith d .illegalDataValue 2))
  | illegalFunction (hfc : FunctionCode.ofByte? (byteAt d 1) = none) :
    SubParserOutcome d (.error (rejectWith d .illegalFunction 1))
  | payload (pl : Payload) (hfc : FunctionCode.ofByte? (byteAt d 1) ≠ none) (hlen : payloadEnd d ≤ d.length)
    (hv : ¬ IllegalCoil d) : SubParserOutcome d (.ok (pl, payloadEnd d))

theorem exists_coilWord_of_legal {d : List Byte} (h5 : byteAt d 1 = 0x05) (h : ¬ IllegalCoil d) :
    ∃ v, wordAt d 4 = coilWord v := by
  by_cases h1 : wordAt d 4 = 0xFF00
  · exact ⟨true, h1⟩
  · exact ⟨false, not_not.1 fun h0 => h ⟨h5, h1, h0⟩⟩

theorem subParserOf_outcome (d : List Byte) : SubParserOutcome d (subParserOf (byteAt d 1) d) := by
  have hnone := FunctionCode.ofByte?_eq_none_iff_notMem (byteAt d 1)
  obtain ⟨hfc, mk, hsub⟩ | ⟨hfc, hsub⟩ | ⟨hfc, mk, hsub⟩ | ⟨hfc, hsub⟩ := subParserOf_family (byteAt d 1)
  · have hp : payloadEnd d = 6 := if_neg (by grind)
    rw [hsub]
    by_cases h6 : d.length < 6
    · rw [subRead_of_short h6]
      exact .wait (hp ▸ h6)
    · rw [subRead_of_le (Nat.not_lt.1 h6), ← hp]
      exact .payload _ (by grind) (by omega) (by grind [IllegalCoil])
  · have hp : payloadEnd d = 6 := if_neg (by grind)
    rw [hsub]
    by_cases h6 : d.length < 6
    · rw [subWriteCoil_of_short h6]
      exact .wait (hp ▸ h6)
    · by_cases hv : IllegalCoil d
      · rw [subWriteCoil_of_illegal (Nat.not_lt.1 h6) hv.2]
        exact .illegalValue (Nat.not_lt.1 h6) hv
      · obtain ⟨v, hw⟩ := exists_coilWord_of_legal hfc hv
        rw [subWriteCoil_of_coilWord (Nat.not_lt.1 h6) hw, ← hp]
        exact .payload _ (by grind) (by omega) hv
  · have hp : payloadEnd d = 7 + (byteAt d 6).toNat := if_pos hfc
    rw [hsub]
    by_cases h7 : d.length < 7
    · rw [subWriteMultiple_of_short h7]
      exact .wait (by omega)
    · by_cases hb : d.length < 7 + (byteAt d 6).toNat
      · rw [subWriteMultiple_of_overrun (Nat.not_lt.1 h7) hb]
        exact .overrun (by omega)
      · rw [subWriteMultiple_of_le (Nat.not_lt.1 hb), ← hp]
        exact .payload _ (by grind) (by omega) (by grind [IllegalCoil])
  · rw [hsub]
    exact .illegalFunction (hnone.2 hfc)

/-- The rows of R129's table, each with what leads to it. -/
inductive ParseOutcome (d : List Byte) : ParseResult → Prop
  | wait : ParseOutcome d needMoreBytes
  | overrun : ParseOutcome d { code := .illegalDataValue, frame := none, bytesRead := 0 }
  | illegalValue (hlen : 6 ≤ d.length) (hv : IllegalCoil d) : ParseOutcome d (rejectWith d .illegalDataValue 2)
  | illegalFunction (hlen : 4 ≤ d.length) (hfc : FunctionCode.ofByte? (byteAt d 1) = none) :
    ParseOutcome d (rejectWith d .illegalFunction 1)
  | wrongCrc (pl : Payload) (hsub : subParserOf (byteAt d 1) d = .ok (pl, payloadEnd d))
    (hlen : payloadEnd d + 2 ≤ d.length) : ParseOutcome d (rejectWith d .memoryParityError (payloadEnd d + 2))
  | ok (pl : Payload) (hsub : subParserOf (byteAt d 1) d = .ok (pl, payloadEnd d)) (hlen : payloadEnd d + 2 ≤ d.length)
    (hcrc : wordAt d (payloadEnd d) = compute (memRead d 0 (payloadEnd d))) :
    ParseOutcome d
      { code := .noError, frame := some { header := headerOf d, payload := some pl }, bytesRead := payloadEnd d + 2 }

theorem parseFrame_outcome (d : List Byte) : ParseOutcome d (parseFrame d) := by
  by_cases h4 : d.length < 4
  · rw [parseFrame_of_short h4]
    exact .wait
  have h4 := Nat.not_lt.1 h4
  generalize hsub : subParserOf (byteAt d 1) d = x
  cases hsub ▸ subParserOf_outcome d with
  | wait => exact parseFrame_of_error (.inl h4) hsub ▸ .wait
  | overrun => exact parseFrame_of_error (.inl h4) hsub ▸ .overrun
  | illegalValue hlen hv => exact parseFrame_of_error (.inl h4) hsub ▸ .illegalValue hlen hv
  | illegalFunction hfc => exact parseFrame_of_error (.inl h4) hsub ▸ .illegalFunction h4 hfc
  | payload pl =>
    rw [parseFrame_of_ok h4 hsub]
    obtain ⟨-, e⟩ | ⟨hlen, -, e⟩ | ⟨hlen, hcrc, e⟩ := checkCrc_cases d pl (payloadEnd d)
    · exact e ▸ .wait
    · exact e ▸ .wrongCrc pl hsub hlen
    · exact e ▸ .ok pl hsub hlen hcrc

theorem ParsesTo.outcome {d : List Byte} {r : ParseResult} (h : ParsesTo d r) : ParseOutcome d r :=
  (parsesTo_iff d r).1 h ▸ parseFrame_outcome d

/-- Settles O38: each row of R129's table is as the columns say. -/
theorem parseResultTable : Obligations.ParseResultTable := by
  intro d
  have hp := payloadEnd_mem_range d
  have h := parseFrame_outcome d
  refine ⟨parseFrame d, (parsesTo_iff d _).2 rfl, ?_⟩
  generalize parseFrame d = r at h ⊢
  cases h with
  | wait => simp [needMoreBytes, ParseResult.parseClass]
  | overrun => simp [ParseResult.parseClass]
  | illegalValue hlen =>
    have hle : 2 ≤ d.length := by omega
    simp [ParseResult.parseClass, hle]
  | illegalFunction hlen =>
    have hle : 1 ≤ d.length := by omega
    simp [ParseResult.parseClass, hle]
  | wrongCrc pl hsub hlen => simp [ParseResult.parseClass, hlen, hp]
  | ok pl hsub hlen => simp [ParseResult.parseClass, hlen]

/-- Settles O39: the codes of the six rows of R129's table. -/
theorem parseReturnsOnlyFiveCodes : Obligations.ParseReturnsOnlyFiveCodes := by
  intro d s t e
  have h := parseFrame_outcome d
  refine ⟨parseFrame d, congrArg State.result (guardInput_complete_eq_next e), ?_⟩
  generalize parseFrame d = r at h ⊢
  cases h with
  | wait => decide
  | overrun | illegalValue => exact .inr (.inr (.inl rfl))
  | illegalFunction => exact .inr (.inl rfl)
  | wrongCrc => exact .inr (.inr (.inr (.inr rfl)))
  | ok => exact .inl rfl

end Sys2Proof.Machine
end

section
/-! SUPPORT. What PARSE's answer depends on (42_parse.md R127), and what follows for prefixes, junk bytes and
changed bytes. -/

namespace Sys2Proof.Machine

/-! ## What PARSE depends on -/

/-- `e` has the bytes of `d` below `B`, where both have one (R127). -/
def AgreeBelow (B : Nat) (d e : List Byte) : Prop :=
  ∀ a, a < B → a < d.length → a < e.length → byteAt e a = byteAt d a

section AgreeBelow
variable {B : Nat} {d e : List Byte}

theorem AgreeBelow.mono (h : AgreeBelow B d e) {C : Nat} (hC : C ≤ B) : AgreeBelow C d e :=
  fun a ha => h a (ha.trans_le hC)

theorem AgreeBelow.headerOf_eq (h : AgreeBelow B d e) (hB : 2 ≤ B) (hd : 2 ≤ d.length) (he : 2 ≤ e.length) :
    headerOf e = headerOf d := by
  rw [headerOf, headerOf, h 0 (by omega) (by omega) (by omega), h 1 (by omega) (by omega) (by omega)]

theorem AgreeBelow.wordAt_eq (h : AgreeBelow B d e) {k : Nat} (hB : k + 2 ≤ B) (hd : k + 2 ≤ d.length)
    (he : k + 2 ≤ e.length) : wordAt e k = wordAt d k := by
  rw [wordAt, wordAt, h k (by omega) (by omega) (by omega), h (k + 1) (by omega) (by omega) (by omega)]

@[simp] theorem memRead_length (d : List Byte) (k n : Nat) : (memRead d k n).length = min n (d.length - k) := by
  simp [memRead]

theorem AgreeBelow.memRead_eq (h : AgreeBelow B d e) {k n : Nat} (hB : k + n ≤ B) (hd : k + n ≤ d.length)
    (he : k + n ≤ e.length) : memRead e k n = memRead d k n := by
  refine List.ext_getElem (by rw [memRead_length, memRead_length]; omega) fun i hi _ => ?_
  rw [memRead_length] at hi
  have := h (k + i) (by omega) (by omega) (by omega)
  rw [byteAt, byteAt, List.getD_eq_getElem _ _ (by omega), List.getD_eq_getElem _ _ (by omega)] at this
  simpa [memRead] using this

theorem agreeBelow_of_take_eq (h : e.take B = d.take B) : AgreeBelow B d e := fun a ha _ _ => by
  have := congrArg (·.getD a 0) h
  simpa [byteAt, List.getElem?_take_of_lt ha] using this

theorem agreeBelow_append (B : Nat) (d e : List Byte) : AgreeBelow B d (d ++ e) :=
  fun a _ ha _ => byteAt_append_left d e a ha

/-- Step S4 depends on the bytes up to the CRC field and on its length test. -/
theorem AgreeBelow.checkCrc_eq {p : Nat} (h : AgreeBelow (p + 2) d e) (hn : e.length < p + 2 ↔ d.length < p + 2)
    (pl : Payload) : checkCrc e pl p = checkCrc d pl p := by
  by_cases hlen : d.length < p + 2
  · exact (if_pos (hn.2 hlen)).trans (if_pos hlen).symm
  · have hd := Nat.not_lt.1 hlen
    have he := Nat.not_lt.1 (mt hn.1 hlen)
    rw [checkCrc, checkCrc, if_neg hlen, if_neg (mt hn.1 hlen), h.wordAt_eq le_rfl hd he,
      h.memRead_eq (by omega) (by omega) (by omega), rejectWith, rejectWith,
      h.headerOf_eq (by omega) (by omega) (by omega)]

theorem AgreeBelow.subRead_eq (h : AgreeBelow 6 d e) (hn : e.length < 6 ↔ d.length < 6) (mk : Word → Word → Payload) :
    subRead mk e = subRead mk d := by
  by_cases h6 : d.length < 6
  · rw [subRead_of_short h6, subRead_of_short (hn.2 h6)]
  · rw [subRead_of_le (by omega), subRead_of_le (by omega), h.wordAt_eq (by omega) (by omega) (by omega),
      h.wordAt_eq (by omega) (by omega) (by omega)]

theorem AgreeBelow.subWriteCoil_eq (h : AgreeBelow 6 d e) (hn : e.length < 6 ↔ d.length < 6) :
    subWriteCoil e = subWriteCoil d := by
  by_cases h6 : d.length < 6
  · rw [subWriteCoil_of_short h6, subWriteCoil_of_short (hn.2 h6)]
  · rw [subWriteCoil, subWriteCoil, if_neg h6, if_neg (mt hn.1 h6), h.wordAt_eq (by omega) (by omega) (by omega),
      h.wordAt_eq (by omega) (by omega) (by omega), rejectWith, rejectWith,
      h.headerOf_eq (by omega) (by omega) (by omega)]

theorem AgreeBelow.subWriteMultiple_eq (h : AgreeBelow (7 + (byteAt d 6).toNat) d e)
    (hfix : e.length < 7 ↔ d.length < 7)
    (hend : e.length < 7 + (byteAt d 6).toNat ↔ d.length < 7 + (byteAt d 6).toNat)
    (mk : Word → Word → List Byte → Payload) : subWriteMultiple mk e = subWriteMultiple mk d := by
  by_cases h7 : d.length < 7
  · rw [subWriteMultiple_of_short h7, subWriteMultiple_of_short (hfix.2 h7)]
  have hbc : byteAt e 6 = byteAt d 6 := h 6 (by omega) (by omega) (by omega)
  by_cases hb : d.length < 7 + (byteAt d 6).toNat
  · rw [subWriteMultiple_of_overrun (d := e) (by omega) (hbc ▸ hend.2 hb),
      subWriteMultiple_of_overrun (Nat.not_lt.1 h7) hb]
  · rw [subWriteMultiple_of_le (d := e) (hbc ▸ Nat.not_lt.1 (mt hend.1 hb)),
      subWriteMultiple_of_le (Nat.not_lt.1 hb), hbc, h.wordAt_eq (by omega) (by omega) (by omega),
      h.wordAt_eq (by omega) (by omega) (by omega), h.memRead_eq (by omega) (by omega) (by omega)]

/-- A sub-parser of a function code depends on the bytes up to the payload end and on its length tests. -/
theorem AgreeBelow.subParserOf_eq (h : AgreeBelow (payloadEnd d) d e) (hd : 2 ≤ d.length) (he : 2 ≤ e.length)
    (hknown : FunctionCode.ofByte? (byteAt d 1) ≠ none) (hfix : e.length < fixedEnd d ↔ d.length < fixedEnd d)
    (hend : e.length < payloadEnd d ↔ d.length < payloadEnd d) :
    subParserOf (byteAt e 1) e = subParserOf (byteAt d 1) d := by
  have hp := (payloadEnd_mem_range d).1
  rw [h 1 (by omega) (by omega) (by omega)]
  obtain ⟨hfc, mk, hsub⟩ | ⟨hfc, hsub⟩ | ⟨hfc, mk, hsub⟩ | ⟨hfc, -⟩ := subParserOf_family (byteAt d 1)
  · rw [fixedEnd, if_neg (by grind)] at hfix
    exact hsub ▸ (h.mono hp).subRead_eq hfix mk
  · rw [fixedEnd, if_neg (by grind)] at hfix
    exact hsub ▸ (h.mono hp).subWriteCoil_eq hfix
  · rw [fixedEnd, if_pos hfc] at hfix
    rw [payloadEnd, if_pos hfc] at h hend
    exact hsub ▸ h.subWriteMultiple_eq hfix hend mk
  · exact absurd ((FunctionCode.ofByte?_eq_none_iff_notMem _).2 hfc) hknown

end AgreeBelow

/-! ## R127's bound and length tests -/

theorem parseBounds_of_short {d : List Byte} (h : d.length < 4) : parseBounds d = (4, [4]) := if_pos h

theorem parseBounds_of_unknown {d : List Byte} (h4 : 4 ≤ d.length) (hfc : FunctionCode.ofByte? (byteAt d 1) = none) :
    parseBounds d = (2, [4]) :=
  (if_neg (Nat.not_lt.2 h4)).trans (if_pos ((FunctionCode.ofByte?_eq_none_iff_notMem _).1 hfc))

theorem parseBounds_of_illegalCoil {d : List Byte} (h6 : 6 ≤ d.length) (hv : IllegalCoil d) :
    parseBounds d = (6, [4, 6]) := by
  rw [parseBounds, if_neg (by omega), if_neg (by rw [hv.1]; decide), if_pos ⟨hv.1, h6, hv.2⟩]

/-- Where step S4 is on the path, or would be with more bytes: the bound is the nominal length. -/
theorem parseBounds_of_known {d : List Byte} (h4 : 4 ≤ d.length) (hfc : FunctionCode.ofByte? (byteAt d 1) ≠ none)
    (hv : ¬ (6 ≤ d.length ∧ IllegalCoil d)) :
    (parseBounds d).1 = payloadEnd d + 2 ∧
      ∀ n, n ∈ (parseBounds d).2 ↔ n = 4 ∨ n = fixedEnd d ∨ n = payloadEnd d ∨ n = payloadEnd d + 2 := by
  rw [Ne, FunctionCode.ofByte?_eq_none_iff_notMem] at hfc
  have hcoil : ¬ (byteAt d 1 = 0x05 ∧ 6 ≤ d.length ∧ wordAt d 4 ≠ 0xFF00 ∧ wordAt d 4 ≠ 0x0000) :=
    fun ⟨h5, h6, h⟩ => hv ⟨h6, h5, h⟩
  have hm : byteAt d 1 ∈ ([0x0F, 0x10] : List Byte) ↔ byteAt d 1 = 0x0F ∨ byteAt d 1 = 0x10 := by simp
  simp only [parseBounds, if_neg (Nat.not_lt.2 h4), if_neg hfc, if_neg hcoil, payloadEnd, fixedEnd, hm]
  split
  · simp [show ∀ bc : Nat, 9 + bc = 7 + bc + 2 by omega]
  · simp

/-- R127's bound and length tests cover what the sub-parser of a function code depends on. -/
theorem parseBounds_covers_payload {d : List Byte} (h4 : 4 ≤ d.length)
    (hfc : FunctionCode.ofByte? (byteAt d 1) ≠ none) :
    payloadEnd d ≤ (parseBounds d).1 ∧ fixedEnd d ∈ (parseBounds d).2 ∧ payloadEnd d ∈ (parseBounds d).2 := by
  by_cases hv : 6 ≤ d.length ∧ IllegalCoil d
  · have hp : payloadEnd d = 6 := if_neg (by rw [hv.2.1]; decide)
    have hf : fixedEnd d = 6 := if_neg (by rw [hv.2.1]; decide)
    rw [parseBounds_of_illegalCoil hv.1 hv.2, hp, hf]
    decide
  · obtain ⟨hB, ht⟩ := parseBounds_of_known h4 hfc hv
    exact ⟨by omega, (ht _).2 (.inr (.inl rfl)), (ht _).2 (.inr (.inr (.inl rfl)))⟩

theorem four_mem_parseBounds (d : List Byte) : 4 ∈ (parseBounds d).2 := by
  unfold parseBounds
  dsimp only
  split_ifs <;> simp

/-- R127: the bytes below the bound and the length tests decide the result. -/
theorem parseFrame_eq_of_agreeBelow {d e : List Byte} (h : AgreeBelow (parseBounds d).1 d e)
    (ht : ∀ n ∈ (parseBounds d).2, (e.length < n ↔ d.length < n)) : parseFrame e = parseFrame d := by
  have ht4 := ht 4 (four_mem_parseBounds d)
  by_cases h4 : d.length < 4
  · rw [parseFrame_of_short h4, parseFrame_of_short (ht4.2 h4)]
  have hd := Nat.not_lt.1 h4
  have he := Nat.not_lt.1 (mt ht4.1 h4)
  by_cases hfc : FunctionCode.ofByte? (byteAt d 1) = none
  · rw [parseBounds_of_unknown hd hfc] at h
    have hhead := h.headerOf_eq le_rfl (by omega) (by omega)
    have hsub := subParserOf_of_ofByte?_none hfc
    have hfe : byteAt e 1 = byteAt d 1 := congrArg CommandHeader.command hhead
    rw [parseFrame_of_error (.inl he) (congrFun (hfe ▸ hsub) e), parseFrame_of_error (.inl hd) (congrFun hsub d),
      rejectWith, rejectWith, hhead]
  obtain ⟨hB, hfix, hend⟩ := parseBounds_covers_payload hd hfc
  have hsub := (h.mono hB).subParserOf_eq (by omega) (by omega) hfc (ht _ hfix) (ht _ hend)
  have hout := subParserOf_outcome d
  generalize hx : subParserOf (byteAt d 1) d = x at hout hsub
  cases hout with
  | payload pl _ hlen hv =>
    obtain ⟨hB, hmem⟩ := parseBounds_of_known hd hfc (mt And.right hv)
    rw [parseFrame_of_ok he hsub, parseFrame_of_ok hd hx]
    exact (hB ▸ h).checkCrc_eq (ht _ ((hmem _).2 (.inr (.inr (.inr rfl))))) pl
  | _ => rw [parseFrame_of_error (.inl he) hsub, parseFrame_of_error (.inl hd) hx]

/-- Where step S4 was reached with all its bytes, the bound is what PARSE consumes, and covers every length test. -/
theorem parseBounds_of_checked {d : List Byte} {pl : Payload}
    (hsub : subParserOf (byteAt d 1) d = .ok (pl, payloadEnd d)) (hlen : payloadEnd d + 2 ≤ d.length) :
    (parseBounds d).1 = payloadEnd d + 2 ∧ ∀ n ∈ (parseBounds d).2, n ≤ payloadEnd d + 2 := by
  have hp := payloadEnd_mem_range d
  have hfix : fixedEnd d ≤ payloadEnd d := by
    unfold fixedEnd payloadEnd
    split <;> omega
  have hout := hsub ▸ subParserOf_outcome d
  cases hout with
  | payload _ hfc _ hv =>
    obtain ⟨hB, ht⟩ := parseBounds_of_known (by omega) hfc (mt And.right hv)
    exact ⟨hB, fun n hn => by have := (ht n).1 hn; omega⟩

/-- A result that consumes bytes has passed every length test on its path. -/
theorem ParseOutcome.le_length_of_mem_tests {d : List Byte} {r : ParseResult} (h : ParseOutcome d r)
    (hr : r.bytesRead ≠ 0) : ∀ n ∈ (parseBounds d).2, n ≤ d.length := by
  cases h with
  | wait | overrun => exact absurd rfl hr
  | illegalValue hlen hv =>
    rw [parseBounds_of_illegalCoil hlen hv]
    simpa using ⟨(by omega : 4 ≤ d.length), hlen⟩
  | illegalFunction hlen hfc =>
    rw [parseBounds_of_unknown hlen hfc]
    simpa using hlen
  | wrongCrc pl hsub hlen | ok pl hsub hlen =>
    exact fun n hn => ((parseBounds_of_checked hsub hlen).2 n hn).trans hlen

/-- A frame that is consumed whole has its length as R127's bound, and is there with every byte that was tested for. -/
theorem ParseOutcome.bound_of_whole {d : List Byte} {r : ParseResult} (h : ParseOutcome d r)
    (hr : r.code = .noError ∨ r.code = .memoryParityError) :
    (parseBounds d).1 = r.bytesRead ∧ r.bytesRead ≤ d.length ∧ ∀ n ∈ (parseBounds d).2, n ≤ r.bytesRead := by
  cases h with
  | wait | overrun | illegalValue | illegalFunction => simp [needMoreBytes] at hr
  | wrongCrc pl hsub hlen | ok pl hsub hlen =>
    obtain ⟨hB, ht⟩ := parseBounds_of_checked hsub hlen
    exact ⟨hB, hlen, ht⟩

/-- Settles O40: the replaced span and the longer one agree with the first below its bound and on its length tests. -/
theorem parseIgnoresBytesAfterFrame : Obligations.ParseIgnoresBytesAfterFrame := by
  intro d e r h
  have hout := h.outcome
  obtain rfl := (parsesTo_iff d r).1 h
  refine ⟨fun hb ht => ?_, fun hcode htake => ?_, fun hread => ?_⟩ <;> rw [parsesTo_iff]
  · exact parseFrame_eq_of_agreeBelow hb ht
  · obtain ⟨hB, hlen, ht⟩ := hout.bound_of_whole hcode
    have hle : (parseFrame d).bytesRead ≤ e.length := by
      have := congrArg List.length htake
      rw [List.length_take, List.length_take] at this
      omega
    refine parseFrame_eq_of_agreeBelow (hB ▸ agreeBelow_of_take_eq htake) fun n hn => ?_
    have := ht n hn
    omega
  · refine parseFrame_eq_of_agreeBelow (agreeBelow_append _ d e) fun n hn => ?_
    have := hout.le_length_of_mem_tests hread n hn
    rw [List.length_append]
    omega

/-! ## What follows from the table and from R127 -/

theorem ParsesTo.unique {d : List Byte} {r r' : ParseResult} (h : ParsesTo d r) (h' : ParsesTo d r') : r = r' :=
  ((parsesTo_iff d r).1 h).symm.trans ((parsesTo_iff d r').1 h')

/-- Settles O41: a prefix that consumed bytes would be the whole frame's result, which consumes more than the
prefix has. -/
theorem parsePrefixesAreIncomplete : Obligations.ParsePrefixesAreIncomplete := by
  intro d f n h
  refine ⟨fun k hk => ?_, (parseIgnoresBytesAfterFrame d (d.take n) _ h).2.1 (.inl rfl) (by simp)⟩
  obtain ⟨r, hr, hnone, hle, -, -, hclass, -⟩ := parseResultTable (d.take k)
  refine ⟨r, hr, hclass.2 (hnone.2 (by_contra fun hread => ?_))⟩
  have hwhole := (parseIgnoresBytesAfterFrame _ (d.drop k) r hr).2.2 hread
  rw [List.take_append_drop] at hwhole
  have hn : r.bytesRead = n := congrArg ParseResult.bytesRead (hwhole.unique h)
  rw [List.length_take] at hle
  omega

/-- What PARSE consumed of an Ok frame is at least the shortest frame and there (R126). -/
theorem ParsesTo.frame_length {d : List Byte} {f : Frame} {n : Nat}
    (h : ParsesTo d { code := .noError, frame := some f, bytesRead := n }) : 8 ≤ n ∧ n ≤ d.length := by
  have hp := payloadEnd_mem_range d
  cases h.outcome with
  | ok pl hsub hlen => exact ⟨by omega, hlen⟩

/-- Only an unknown function code is rejected with one byte consumed (R121). -/
theorem ParseOutcome.not_illegalFunction {d : List Byte} {r : ParseResult} (h : ParseOutcome d r)
    (hfc : FunctionCode.ofByte? (byteAt d 1) ≠ none) : r.code ≠ .illegalFunction ∧ r.bytesRead ≠ 1 := by
  cases h with
  | illegalFunction _ hnone => exact absurd hnone hfc
  | wait | overrun | illegalValue | wrongCrc | ok => simp [needMoreBytes]

/-- Settles O42: behind the junk byte the slave address stands where PARSE reads the function code. -/
theorem parseResynchronises : Obligations.ParseResynchronises := by
  intro j d f n h
  have hlen := h.frame_length
  obtain ⟨a, rest, rfl⟩ := List.exists_cons_of_length_pos (show 0 < d.length by omega)
  refine ⟨fun hfc => ⟨parseUnknownFunctionCode j a rest ?_ hfc, h⟩, fun hfc r hr => ?_⟩
  · rw [List.length_cons] at hlen
    omega
  · exact hr.outcome.not_illegalFunction fun hnone => (FunctionCode.ofByte?_eq_none_iff_notMem a).1 hnone hfc

/-! ## One changed byte -/

theorem byteAt_set_of_ne {d : List Byte} {i k : Nat} (h : i ≠ k) (b : Byte) : byteAt (d.set i b) k = byteAt d k := by
  simp [byteAt, List.getElem?_set_ne h]

/-- A change that is not of the function code, nor of a byte count, leaves the payload end. -/
theorem payloadEnd_set {d : List Byte} {i : Nat} (h1 : i ≠ 1) (h6 : byteAt d 1 ∈ ([0x0F, 0x10] : List Byte) → i ≠ 6)
    (b : Byte) : payloadEnd (d.set i b) = payloadEnd d := by
  rw [payloadEnd, payloadEnd, byteAt_set_of_ne h1]
  split
  · rw [byteAt_set_of_ne (h6 ‹_›)]
  · rfl

/-- The sub-parser of a function code goes on to step S4 where the span has its payload and no illegal coil value. -/
theorem exists_subParserOf_ok {d : List Byte} (hfc : FunctionCode.ofByte? (byteAt d 1) ≠ none)
    (hlen : payloadEnd d ≤ d.length) (hv : ¬ IllegalCoil d) :
    ∃ pl, subParserOf (byteAt d 1) d = .ok (pl, payloadEnd d) := by
  have hout := subParserOf_outcome d
  generalize subParserOf (byteAt d 1) d = x at hout ⊢
  cases hout with
  | wait h | overrun h => exact absurd hlen (Nat.not_le.2 h)
  | illegalValue _ h => exact absurd h hv
  | illegalFunction h => exact absurd h hfc
  | payload pl => exact ⟨pl, rfl⟩

/-- A span that ends with its own CRC fails the comparison once one byte of it is changed (R105). -/
theorem wordAt_set_ne_compute {d : List Byte} {p i : Nat} {b : Byte} (hlen : d.length = p + 2)
    (hcrc : wordAt d p = compute (d.take p)) (hi : i < d.length) (hb : byteAt d i ≠ b) :
    wordAt (d.set i b) p ≠ compute ((d.set i b).take p) := by
  have htake : (d.take p).length = p := List.length_take_of_le (by omega)
  have hd : d.take p ++ wordBytes (compute (d.take p)) = d := hcrc ▸ take_append_wordBytes hlen
  have h := crcDetectsOneChangedByte (d.take p) i b
  rw [hd, htake] at h
  exact h (hlen ▸ hi) hb

/-- Settles O43: the changed span takes the same path to step S4, and there its CRC is wrong. -/
theorem parseRejectsOneChangedByte : Obligations.ParseRejectsOneChangedByte := by
  intro d f i b h hi hb h1 h6 h5
  generalize hn : d.length = n at h ⊢
  cases h.outcome with
  | ok pl hsub hlen hcrc =>
    have hend := payloadEnd_set h1 (fun hm => h6 (by simpa using hm)) b
    have hfc : FunctionCode.ofByte? (byteAt (d.set i b) 1) ≠ none := by
      rw [byteAt_set_of_ne h1]
      cases hsub ▸ subParserOf_outcome d with
      | payload _ hfc => exact hfc
    have hv : ¬ IllegalCoil (d.set i b) := fun ⟨h, hv1, hv0⟩ =>
      (h5 (byteAt_set_of_ne h1 b ▸ h)).elim hv1 hv0
    have hlen' : (d.set i b).length = payloadEnd d + 2 := by rw [List.length_set, hn]
    obtain ⟨pl', hsub'⟩ := exists_subParserOf_ok hfc (by omega) hv
    have hp := payloadEnd_mem_range d
    obtain ⟨-, hwrong, -⟩ := endsByCrc_of_ok (by omega) (hend ▸ hsub')
    exact hwrong hlen'.ge (wordAt_set_ne_compute hn hcrc hi hb)

end Sys2Proof.Machine
end

section
/-! SUPPORT. PARSE as a reader that moves an offset through the span (10_state.md R26, R28). -/

namespace Sys2Proof.Machine

section Reader
variable {d : List Byte} {w : WorkingState} {k : Nat}

/-- The reader stands at offset `k`, and the bytes before it went through the CRC accumulator (R26, R28). -/
def WorkingState.HasRead (w : WorkingState) (d : List Byte) (k : Nat) : Prop :=
  w.parseOffset = k ∧ w.crc = crcFinal (d.take k)

theorem WorkingState.start_hasRead (d : List Byte) : WorkingState.start.HasRead d 0 := ⟨rfl, rfl⟩

theorem take_succ_eq_byteAt (h : k < d.length) : d.take (k + 1) = d.take k ++ [byteAt d k] := by
  rw [List.take_succ_eq_append_getElem h, byteAt, List.getD_eq_getElem _ _ h]

theorem WorkingState.HasRead.readByte_eq_some (hw : w.HasRead d k) (h : k < d.length) :
    ∃ w', readByte d w = some (byteAt d k, w') ∧ w'.HasRead d (k + 1) := by
  obtain ⟨rfl, hcrc⟩ := hw
  refine ⟨_, readByte_of_lt h, rfl, ?_⟩
  rw [take_succ_eq_byteAt h, crcFinal_append, ← hcrc]
  rfl

theorem WorkingState.HasRead.readByte_eq_none (hw : w.HasRead d k) (h : d.length ≤ k) : readByte d w = none :=
  readByte_of_ge (hw.1 ▸ h)

theorem WorkingState.HasRead.readWord_eq_some (hw : w.HasRead d k) (h : k + 2 ≤ d.length) :
    ∃ w', readWord d w = some (wordAt d k, w') ∧ w'.HasRead d (k + 2) := by
  obtain ⟨w1, e1, hw1⟩ := hw.readByte_eq_some (by omega)
  obtain ⟨w2, e2, hw2⟩ := hw1.readByte_eq_some (by omega)
  exact ⟨w2, by simp [readWord, e1, e2, wordAt], hw2⟩

theorem WorkingState.HasRead.readWord_eq_none (hw : w.HasRead d k) (h : d.length < k + 2) : readWord d w = none := by
  by_cases hk : k < d.length
  · obtain ⟨w1, e1, hw1⟩ := hw.readByte_eq_some hk
    simp [readWord, e1, hw1.readByte_eq_none (by omega)]
  · simp [readWord, hw.readByte_eq_none (by omega)]

theorem memRead_succ {n : Nat} (h : k < d.length) : memRead d k (n + 1) = byteAt d k :: memRead d (k + 1) n := by
  rw [memRead, List.drop_eq_getElem_cons h, List.take_succ_cons, byteAt, List.getD_eq_getElem _ _ h, memRead]

theorem WorkingState.HasRead.readBytes_eq_some {n : Nat} (hw : w.HasRead d k) (h : k + n ≤ d.length) :
    ∃ w', readBytes d n w = some (memRead d k n, w') ∧ w'.HasRead d (k + n) := by
  induction n generalizing k w with
  | zero => exact ⟨w, by simp [readBytes, memRead], hw⟩
  | succ n ih =>
    obtain ⟨w1, e1, hw1⟩ := hw.readByte_eq_some (by omega)
    obtain ⟨w2, e2, hw2⟩ := ih hw1 (by omega)
    refine ⟨w2, ?_, by rwa [Nat.add_right_comm] at hw2⟩
    rw [memRead_succ (by omega)]
    simp [readBytes, e1, e2]

theorem WorkingState.HasRead.readBytes_eq_none {n : Nat} (hw : w.HasRead d k) (hk : k ≤ d.length)
    (h : d.length < k + n) : readBytes d n w = none := by
  induction n generalizing k w with
  | zero => omega
  | succ n ih =>
    by_cases hlt : k < d.length
    · obtain ⟨w1, e1, hw1⟩ := hw.readByte_eq_some hlt
      simp [readBytes, e1, ih hw1 (by omega) (by omega)]
    · simp [readBytes, hw.readByte_eq_none (by omega)]

/-! ## The sub-parsers as readers -/

/-- The two words every sub-parser reads first, or the result of a span without them. -/
def readPair (input : List Byte) (w : WorkingState) : Except ParseResult (Word × Word × WorkingState) :=
  match (do
    let (a, w) ← readWord input w
    let (v, w) ← readWord input w
    return (a, v, { w with payloadEnd := w.parseOffset }) : Option (Word × Word × WorkingState)) with
  | none => .error needMoreBytes
  | some r => .ok r

theorem readPair_of_short (hw : w.HasRead d 2) (h : d.length < 6) : readPair d w = .error needMoreBytes := by
  by_cases h4 : 4 ≤ d.length
  · obtain ⟨w1, e1, hw1⟩ := hw.readWord_eq_some h4
    simp [readPair, e1, hw1.readWord_eq_none h]
  · simp [readPair, hw.readWord_eq_none (Nat.not_le.1 h4)]

theorem readPair_of_le (hw : w.HasRead d 2) (h : 6 ≤ d.length) :
    ∃ w', readPair d w = .ok (wordAt d 2, wordAt d 4, w') ∧ w'.HasRead d 6 := by
  obtain ⟨w1, e1, hw1⟩ := hw.readWord_eq_some (by omega)
  obtain ⟨w2, e2, hw2⟩ := hw1.readWord_eq_some h
  exact ⟨{ w2 with payloadEnd := w2.parseOffset }, by simp [readPair, e1, e2], hw2⟩

/-- `x` is what the sub-parser's answer is in a reader: the same immediate result, or the same payload with the reader
at the payload end. -/
def Follows (d : List Byte) (x : Except ParseResult (Payload × WorkingState)) :
    Except ParseResult (Payload × Nat) → Prop
  | .error r => x = .error r
  | .ok (pl, p) => ∃ w, x = .ok (pl, w) ∧ w.HasRead d p

/-- The reader of a payload that is two words of any value. -/
def readRequest (mk : Word → Word → Payload) (input : List Byte) (w : WorkingState) :
    Except ParseResult (Payload × WorkingState) := do
  let (a, n, w) ← readPair input w
  return (mk a n, w)

/-- The reader of the write-multiple family. -/
def readMultiple (mk : Word → Word → List Byte → Payload) (input : List Byte) (w : WorkingState) :
    Except ParseResult (Payload × WorkingState) := do
  let (a, n, w) ← readPair input w
  match readByte input w with
  | none => .error needMoreBytes
  | some (bc, w) =>
    match readBytes input bc.toNat w with
    | none => .error { code := .illegalDataValue, frame := none, bytesRead := 0 }
    | some (data, w) => .ok (mk a n data, { w with payloadEnd := w.parseOffset })

/-- The reader of WriteSingleCoil. -/
def readCoil (input : List Byte) (w : WorkingState) : Except ParseResult (Payload × WorkingState) := do
  let (a, v, w) ← readPair input w
  if v = 0xFF00 then .ok (.writeCoilRequest a true, w)
  else if v = 0x0000 then .ok (.writeCoilRequest a false, w)
  else .error (rejectWith input .illegalDataValue 2)

theorem readRequest_follows (hw : w.HasRead d 2) (mk : Word → Word → Payload) :
    Follows d (readRequest mk d w) (subRead mk d) := by
  by_cases h : d.length < 6
  · rw [subRead_of_short h, readRequest, readPair_of_short hw h]
    rfl
  · obtain ⟨w', e, hw'⟩ := readPair_of_le hw (Nat.not_lt.1 h)
    rw [subRead_of_le (Nat.not_lt.1 h), readRequest, e]
    exact ⟨w', rfl, hw'⟩

theorem readCoil_follows (hw : w.HasRead d 2) : Follows d (readCoil d w) (subWriteCoil d) := by
  by_cases h : d.length < 6
  · rw [subWriteCoil_of_short h, readCoil, readPair_of_short hw h]
    rfl
  · obtain ⟨w', e, hw'⟩ := readPair_of_le hw (Nat.not_lt.1 h)
    rw [subWriteCoil, if_neg h, readCoil, e]
    simp only [bind, Except.bind]
    split
    · exact ⟨w', rfl, hw'⟩
    · split
      · exact ⟨w', rfl, hw'⟩
      · rfl

theorem readMultiple_follows (hw : w.HasRead d 2) (mk : Word → Word → List Byte → Payload) :
    Follows d (readMultiple mk d w) (subWriteMultiple mk d) := by
  by_cases h6 : d.length < 6
  · rw [subWriteMultiple_of_short (by omega), readMultiple, readPair_of_short hw h6]
    rfl
  obtain ⟨w1, e1, hw1⟩ := readPair_of_le hw (Nat.not_lt.1 h6)
  by_cases h7 : d.length < 7
  · rw [subWriteMultiple_of_short h7, readMultiple, e1]
    simp [bind, Except.bind, hw1.readByte_eq_none (by omega), Follows]
  obtain ⟨w2, e2, hw2⟩ := hw1.readByte_eq_some (Nat.not_lt.1 h7)
  by_cases hb : d.length < 7 + (byteAt d 6).toNat
  · rw [subWriteMultiple_of_overrun (Nat.not_lt.1 h7) hb, readMultiple, e1]
    simp [bind, Except.bind, e2, hw2.readBytes_eq_none (Nat.not_lt.1 h7) hb, Follows]
  · obtain ⟨w3, e3, hw3⟩ := hw2.readBytes_eq_some (Nat.not_lt.1 hb)
    rw [subWriteMultiple_of_le (Nat.not_lt.1 hb), readMultiple, e1]
    exact ⟨{ w3 with payloadEnd := w3.parseOffset }, by simp [bind, Except.bind, e2, e3], hw3⟩

/-- `readPayload` of each function code is one of the three readers, which follows the sub-parser of that code. -/
theorem readPayload_follows (hw : w.HasRead d 2) (fc : Byte) : Follows d (readPayload d fc w) (subParserOf fc d) := by
  induction fc using functionCodeByte_cases with
  | known c =>
    cases c with
    | readCoils | readDiscreteInputs | readHoldingRegisters | readInputRegisters | writeSingleHoldingRegister =>
      exact readRequest_follows hw _
    | writeSingleCoil => exact readCoil_follows hw
    | writeMultipleCoils | writeMultipleHoldingRegisters => exact readMultiple_follows hw _
  | unknown fc h =>
    rw [subParserOf_of_ofByte?_none h]
    simp [readPayload, h, Follows, subIllegalFunction]

end Reader

/-- Settles O45: after the header the reader follows the sub-parser, and where that ends its accumulator holds the CRC
of everything before the CRC field. -/
theorem parseStreamGivesResult : Obligations.ParseStreamGivesResult := by
  intro d
  rw [parsesTo_iff]
  by_cases h4 : d.length < 4
  · exact (parseFrame_of_short h4).trans (if_pos h4).symm
  have hd := Nat.not_lt.1 h4
  obtain ⟨w1, e1, hw1⟩ := (WorkingState.start_hasRead d).readByte_eq_some (by omega)
  obtain ⟨w2, e2, hw2⟩ := hw1.readByte_eq_some (by omega)
  have hf := readPayload_follows hw2 (byteAt d 1)
  rw [parseStream]
  simp only [minFrame, if_neg h4, e1, e2, Option.bind_eq_bind, Option.bind_some, Option.pure_def]
  generalize hsub : subParserOf (byteAt d 1) d = x at hf
  cases x with
  | error r =>
    rw [parseFrame_of_error (.inl hd) hsub, show readPayload d (byteAt d 1) w2 = .error r from hf]
  | ok answer =>
    obtain ⟨pl, p⟩ := answer
    obtain ⟨w3, e3, rfl, hcrc⟩ := hf
    rw [parseFrame_of_ok hd hsub, e3]
    by_cases hlen : d.length < w3.parseOffset + 2
    · simp [checkCrc, readCrc_of_gt, hlen]
    · simp [checkCrc, readCrc_of_le (Nat.not_lt.1 hlen), hlen, hcrc, compute, memRead, rejectWith, headerOf]

end Sys2Proof.Machine
end

section
/-! SUPPORT. SERIALIZE (43_serialize.md): the round trip of a write-single response, the end-to-end scenario, the shapes
without a rendering, and where header and CRC stand in an image. -/

namespace Sys2Proof.Machine

/-! ## What SERIALIZE renders, parsed -/

/-- An image ends with its own CRC, so step S4 at the CRC field accepts it (R126, R148). -/
theorem EndsByCrc.parsesTo_of_own_crc (d : List Byte) {h : CommandHeader} {pl : Payload}
    (e : EndsByCrc (d ++ wordBytes (compute d)) h pl d.length) :
    ParsesTo (d ++ wordBytes (compute d))
      { code := .noError, frame := some { header := h, payload := some pl }, bytesRead := d.length + 2 } := by
  obtain ⟨-, -, hok⟩ := e
  have hfield : wordAt (d ++ wordBytes (compute d)) d.length = compute d := by
    simp [wordAt, byteAt, wordBytes]
  exact hok (by simp) (by rw [hfield, List.take_left])

/-- A write-single-coil request with a legal coil value and its own CRC parses as Ok (R115, R116, R126). -/
theorem parsesTo_writeCoilRequest (slave : Byte) (a : Word) (b : Bool) :
    let d := [slave, 0x05, hi8 a, lo8 a, if b then 0xFF else 0x00, 0x00]
    ParsesTo (d ++ wordBytes (compute d)) ⟨.noError, some ⟨⟨slave, 0x05⟩, some (.writeCoilRequest a b)⟩, 8⟩ := by
  intro d
  obtain ⟨hon, hoff, -⟩ :=
    parseWriteSingleFamily slave (hi8 a) (lo8 a) (if b then 0xFF else 0x00) 0x00 (wordBytes (compute d))
  rw [be16_hi8_lo8] at hon hoff
  refine EndsByCrc.parsesTo_of_own_crc d ?_
  cases b with
  | true => exact hon rfl
  | false => exact hoff rfl

/-- A write-single-register request with its own CRC parses as Ok, whatever the value (R115, R126). -/
theorem parsesTo_writeRegisterRequest (slave : Byte) (a v : Word) :
    let d := [slave, 0x06, hi8 a, lo8 a, hi8 v, lo8 v]
    ParsesTo (d ++ wordBytes (compute d)) ⟨.noError, some ⟨⟨slave, 0x06⟩, some (.writeRegisterRequest a v)⟩, 8⟩ := by
  intro d
  obtain ⟨-, -, -, hany⟩ :=
    parseWriteSingleFamily slave (hi8 a) (lo8 a) (hi8 v) (lo8 v) (wordBytes (compute d))
  rw [be16_hi8_lo8, be16_hi8_lo8] at hany
  exact EndsByCrc.parsesTo_of_own_crc d hany

/-- Settles O56: the image of a write-single response is, byte for byte, a request with equal fields and its own CRC. -/
theorem writeSingleRoundTrip : Obligations.WriteSingleRoundTrip := by
  intro s slave a v b hl
  obtain ⟨hcoil, -⟩ := serializeWriteResponses s ⟨slave, 0x05⟩ a v b hl
  obtain ⟨-, -, hregister, -⟩ := serializeWriteResponses s ⟨slave, 0x06⟩ a v b hl
  exact ⟨⟨_, hcoil, parsesTo_writeCoilRequest slave a b⟩, ⟨_, hregister, parsesTo_writeRegisterRequest slave a v⟩⟩

/-- Settles O55: a read request that ends with its own CRC, and a response of one register. -/
theorem endToEndScenario : Obligations.EndToEndScenario := by
  refine ⟨?_, fun s hv hl => ?_⟩
  · have hcrc : wordBytes (compute [0xC0, 0x03, 0x4E, 0x20, 0x00, 0x01]) = [0x82, 0x39] := by decide +kernel
    have hends := parseReadFamily 0xC0 0x03 0x4E 0x20 0x00 0x01
      (wordBytes (compute [0xC0, 0x03, 0x4E, 0x20, 0x00, 0x01])) _ (.inr (.inr (.inl ⟨rfl, rfl⟩)))
    have hparses := EndsByCrc.parsesTo_of_own_crc [0xC0, 0x03, 0x4E, 0x20, 0x00, 0x01] hends
    rwa [hcrc] at hparses
  · have hcrc : wordBytes (compute [0xC0, 0x03, 0x02, 0x00, 0x01]) = [0x44, 0x55] := by decide +kernel
    have hd : [0xC0, 0x03, BitVec.ofNat 8 (2 * 1)] ++ ([1] : List Word).flatMap (fun v => [hi8 v, lo8 v]) =
      [0xC0, 0x03, 0x02, 0x00, 0x01] := by decide
    obtain ⟨-, hrenders, -⟩ := serializeRegisterResponses s ⟨0xC0, 0x03⟩ [1] hv (by decide) hl
    rw [List.length_singleton, hd, hcrc] at hrenders
    exact hrenders

/-! ## Shapes without a rendering -/

/-- Settles O51: the row of all nine shapes is SERIALIZE.Unrenderable, which renders no body. -/
theorem unrenderableShapesFail : Obligations.UnrenderableShapesFail := by
  intro s f hv hf
  have hrow : decodeResponseRow f = .serializeUnrenderable f := by
    obtain ⟨h, p⟩ := f
    obtain rfl | ⟨_, _, rfl⟩ | ⟨_, _, rfl⟩ | ⟨_, _, rfl⟩ | ⟨_, _, rfl⟩ | ⟨_, _, rfl⟩ | ⟨_, _, rfl⟩ | ⟨_, _, rfl⟩ |
      ⟨_, _, rfl⟩ := hf <;> rfl
  have hexec : exec (.serializeUnrenderable f) s = .next s.serializeFail := finishSerialize_none f.header _ s hv
  refine ⟨failsToRender_of_fail ?_, failsToRender_of_fail hexec⟩
  rw [← exec_decodeResponseRow, hrow, hexec]

/-! ## Header and CRC -/

/-- The CRC on the wire is the final accumulator, the low byte first (R45, R102). -/
theorem wordBytes_compute (d : List Byte) : wordBytes (compute d) = [lo8 (crcFinal d), hi8 (crcFinal d)] := by
  rw [wordBytes, compute, hi8_swap16, lo8_swap16]

/-- An image is header and body, and then the two bytes of the final accumulator over both. -/
theorem imageOf_eq_append_crc (h : CommandHeader) (body : List Byte) :
    imageOf h body = (h.slaveAddress :: h.command :: body) ++
      [lo8 (crcFinal (h.slaveAddress :: h.command :: body)), hi8 (crcFinal (h.slaveAddress :: h.command :: body))] :=
  congrArg (h.slaveAddress :: h.command :: body ++ ·) (wordBytes_compute _)

/-- Settles O53: a success has written an image that fits, which is header and body before their CRC. -/
theorem headerFirstAndCrcLast : Obligations.HeaderFirstAndCrcLast := by
  intro f s t n e ht
  obtain rfl | ⟨bs, hl, rfl⟩ := serializeFrame_eq_next e
  · cases ht
  cases ht
  have hout := s.serializeOk_outByte _ hl
  have himage := imageOf_eq_append_crc f.header bs
  refine ⟨f.header.slaveAddress :: f.header.command :: bs, ?_, by simp, hl, rfl, rfl, fun a ha => ?_, ?_, ?_⟩
  · rw [himage, List.length_append]
    rfl
  · rw [hout, if_pos (by rw [himage, List.length_append]; omega), himage, List.getElem?_append_left ha]
  · rw [hout, if_pos (by simp), himage]
    simp
  · rw [hout, if_pos (by simp), himage]
    simp

end Sys2Proof.Machine
end

section
/-! SUPPORT. Which images SERIALIZE renders (43_serialize.md R143, R144, R149, R150), and the renderer that writes `Out`
byte after byte (10_state.md R26, R28). -/

namespace Sys2Proof.Machine

/-! ## A body that starts with its byte count -/

/-- The byte count and the data behind it; none above 255 bytes (R71, R150). -/
def countedBody (data : List Byte) : Option (List Byte) :=
  if data.length > 255 then none else some (BitVec.ofNat 8 data.length :: data)

theorem bitsBody_eq_countedBody (vs : List Bool) : bitsBody vs = countedBody (packBits vs) := rfl

theorem registersBody_eq_countedBody (vs : List Word) : registersBody vs = countedBody (vs.flatMap wordBytes) := by
  rw [registersBody, countedBody, flatMap_wordBytes_length]

theorem countedBody_of_le {data : List Byte} (h : data.length ≤ 255) :
    countedBody data = some (BitVec.ofNat 8 data.length :: data) := if_neg (Nat.not_lt.2 h)

theorem countedBody_length {data bs : List Byte} (h : countedBody data = some bs) : bs.length = data.length + 1 := by
  obtain ⟨-, h⟩ := Option.ite_none_left_eq_some.1 h
  cases h
  rfl

theorem countedBody_of_gt {data : List Byte} (h : 255 < data.length) : countedBody data = none := if_pos h

/-- A read response has an image that fits exactly where its byte count and `Out` have room for the data. -/
theorem exists_countedBody_fits_iff (data : List Byte) (cap : Nat) :
    (∃ bs, countedBody data = some bs ∧ bs.length + 4 ≤ cap) ↔ data.length ≤ 255 ∧ data.length + 5 ≤ cap := by
  by_cases h : data.length ≤ 255
  · simp [countedBody_of_le h, h, Nat.add_assoc]
  · simp [countedBody_of_gt (Nat.not_le.1 h), h]

/-! ## Success -/

/-- SERIALIZE succeeds exactly where the frame has a body and the image fits (R149). -/
theorem finishSerialize_succeeds_iff (h : CommandHeader) (body : Option (List Byte)) {n : Nat} {s : State}
    (hc : withinCap s.params.bitsCap n = true) :
    (∃ t k, finishSerialize h body n s = .next t ∧ t.result = some (.serialized true k)) ↔
      ∃ bs, body = some bs ∧ bs.length + 4 ≤ s.params.outCap := by
  constructor
  · rintro ⟨t, k, e, ht⟩
    obtain ⟨-, ⟨-, rfl⟩ | ⟨_, -, -, rfl⟩ | ⟨bs, hb, hl, -⟩⟩ := finishSerialize_eq_next e
    · cases ht
    · cases ht
    · exact ⟨bs, hb, imageOf_length h bs ▸ hl⟩
  · rintro ⟨bs, rfl, hl⟩
    rw [← imageOf_length h bs] at hl
    exact ⟨_, _, by rw [finishSerialize_some h bs n s hc, if_neg (Nat.not_lt.2 hl)], rfl⟩

/-- Settles O54: the image is five bytes longer than the data, which is eight coils or half a register to the byte. -/
theorem referenceCapacityBoundsBursts : Obligations.ReferenceCapacityBoundsBursts := by
  intro s h hcap hbits
  have hv (n : Nat) : withinCap s.params.bitsCap n = true := hbits ▸ withinCap_none n
  refine ⟨fun vs => ?_, fun vs => ?_⟩
  · refine (finishSerialize_succeeds_iff h (bitsBody vs) (hv vs.length)).trans ?_
    rw [bitsBody_eq_countedBody, exists_countedBody_fits_iff, packBits_length, ceil8, hcap]
    omega
  · refine (finishSerialize_succeeds_iff h (registersBody vs) (hv vs.length)).trans ?_
    rw [registersBody_eq_countedBody, exists_countedBody_fits_iff, flatMap_wordBytes_length, hcap]
    omega

/-! ## The renderer as a writer -/

section Writer
variable {cap : Nat} {st : WorkingState × List Byte} {out : List Byte}

/-- The writer has written `out`, all of which `Out` has room for, and stands behind it (R28). -/
def HasWritten (cap : Nat) (st : WorkingState × List Byte) (out : List Byte) : Prop :=
  st.2 = out ∧ st.1.writeOffset = out.length ∧ out.length ≤ cap

/-- A writer that has `y` to write: it has written all of it, or it stopped, and then there is no `y` or `y` does not
fit (R149). -/
inductive Writes (cap : Nat) : Option (WorkingState × List Byte) → Option (List Byte) → Prop
  | done {st : WorkingState × List Byte} {out : List Byte} (h : HasWritten cap st out) : Writes cap (some st) (some out)
  | stopped {y : Option (List Byte)} (h : ∀ out ∈ y, cap < out.length) : Writes cap none y

/-- A writer that goes on from what it has written; one that stopped stays stopped, as what follows is longer. -/
theorem Writes.bind {x : Option (WorkingState × List Byte)} {y : Option (List Byte)} (hx : Writes cap x y)
    {k : WorkingState × List Byte → Option (WorkingState × List Byte)} {g : List Byte → Option (List Byte)}
    (hg : ∀ out, ∀ out' ∈ g out, out.length ≤ out'.length)
    (hk : ∀ st out, HasWritten cap st out → Writes cap (k st) (g out)) : Writes cap (x.bind k) (y.bind g) := by
  cases hx with
  | done h => exact hk _ _ h
  | stopped h =>
    refine .stopped fun out' hout' => ?_
    obtain ⟨out, hy, hout⟩ := Option.bind_eq_some_iff.1 hout'
    exact (h out hy).trans_le (hg out out' hout)

theorem putByte_of_lt (h : st.1.writeOffset < cap) (b : Byte) :
    putByte cap st b = some ({ st.1 with writeOffset := st.1.writeOffset + 1 }, st.2 ++ [b]) := if_pos h

theorem putByte_of_ge (h : cap ≤ st.1.writeOffset) (b : Byte) : putByte cap st b = none := if_neg (Nat.not_lt.2 h)

theorem putBytes_cons (b : Byte) (bs : List Byte) (st : WorkingState × List Byte) :
    putBytes cap (b :: bs) st = (putByte cap st b).bind (putBytes cap bs) := rfl

theorem putBytes_of_le {bs : List Byte} (h : st.1.writeOffset + bs.length ≤ cap) :
    putBytes cap bs st = some ({ st.1 with writeOffset := st.1.writeOffset + bs.length }, st.2 ++ bs) := by
  induction bs generalizing st with
  | nil => simp [putBytes]
  | cons b bs ih =>
    rw [List.length_cons] at h
    rw [putBytes_cons, putByte_of_lt (by omega), Option.bind_some, ih (by simp only; omega)]
    simp [Nat.add_assoc, Nat.add_comm 1]

theorem putBytes_of_gt {bs : List Byte} (hst : st.1.writeOffset ≤ cap) (h : cap < st.1.writeOffset + bs.length) :
    putBytes cap bs st = none := by
  induction bs generalizing st with
  | nil => exact absurd h (Nat.not_lt.2 hst)
  | cons b bs ih =>
    rw [List.length_cons] at h
    rw [putBytes_cons]
    by_cases hb : st.1.writeOffset < cap
    · rw [putByte_of_lt hb, Option.bind_some, ih (by exact hb) (by simp only; omega)]
    · rw [putByte_of_ge (Nat.not_lt.1 hb), Option.bind_none]

theorem HasWritten.writes_putBytes (h : HasWritten cap st out) (bs : List Byte) :
    Writes cap (putBytes cap bs st) (some (out ++ bs)) := by
  obtain ⟨rfl, hoff, hle⟩ := h
  by_cases hfit : st.1.writeOffset + bs.length ≤ cap
  · rw [putBytes_of_le hfit]
    have hlen : st.1.writeOffset + bs.length = (st.2 ++ bs).length := by rw [hoff, List.length_append]
    exact .done ⟨rfl, hlen, hlen ▸ hfit⟩
  · rw [putBytes_of_gt (hoff ▸ hle) (Nat.not_le.1 hfit)]
    refine .stopped fun out' e => ?_
    cases e
    rw [List.length_append, ← hoff]
    exact Nat.not_le.1 hfit

theorem putByte_eq_putBytes (b : Byte) : putByte cap st b = putBytes cap [b] st := (bind_pure _).symm

/-- The count of what was written behind the placeholder, over the placeholder, if it fits a byte (R71, R150). -/
def backfillCount (st : WorkingState × List Byte) : Option (WorkingState × List Byte) :=
  let n := st.1.writeOffset - (st.1.countOffset + 1)
  if n > 255 then none else some (st.1, st.2.set st.1.countOffset (BitVec.ofNat 8 n))

theorem putCounted_eq_bind (cap : Nat) (data : List Byte) (st : WorkingState × List Byte) :
    putCounted cap data st =
      (putBytes cap (0 :: data) ({ st.1 with countOffset := st.1.writeOffset }, st.2)).bind backfillCount := by
  rw [putBytes_cons, Option.bind_assoc]
  rfl

/-- The count over its placeholder gives the counted body behind what stood there. -/
theorem backfillCount_eq {w : WorkingState} {out data : List Byte} (hcount : w.countOffset = out.length)
    (hoff : w.writeOffset = out.length + (data.length + 1)) :
    backfillCount (w, out ++ 0 :: data) = (countedBody data).map fun bs => (w, out ++ bs) := by
  have hn : out.length + (data.length + 1) - (out.length + 1) = data.length := by omega
  rw [backfillCount, countedBody, hcount, hoff, hn]
  split <;> simp

/-- The counted data of a read response (R143, R144). -/
theorem HasWritten.writes_putCounted (h : HasWritten cap st out) (data : List Byte) :
    Writes cap (putCounted cap data st) ((countedBody data).map (out ++ ·)) := by
  obtain ⟨rfl, hoff, hle⟩ := h
  have hlen {bs : List Byte} (hb : countedBody data = some bs) :
      st.1.writeOffset + (data.length + 1) = (st.2 ++ bs).length := by
    rw [hoff, List.length_append, countedBody_length hb]
  rw [putCounted_eq_bind]
  by_cases hfit : st.1.writeOffset + (data.length + 1) ≤ cap
  · rw [putBytes_of_le hfit, Option.bind_some, backfillCount_eq hoff (by rw [hoff, List.length_cons])]
    cases hb : countedBody data with
    | none => exact .stopped nofun
    | some bs => exact .done ⟨rfl, hlen hb, hlen hb ▸ hfit⟩
  · rw [putBytes_of_gt (bs := 0 :: data) (by exact hoff.trans_le hle) (by exact Nat.not_le.1 hfit), Option.bind_none]
    refine .stopped fun out' e => ?_
    obtain ⟨bs, hb, rfl⟩ := Option.map_eq_some_iff.1 e
    exact hlen hb ▸ Nat.not_le.1 hfit

/-- The body of a frame behind its header: the writer's layouts are those of SERIALIZE (R142 to R147). -/
theorem HasWritten.writes_putBody (h : HasWritten cap st out) (hd : CommandHeader) (p : Option Payload) :
    Writes cap (putBody cap p st) ((bodyOf { header := hd, payload := p }).map (out ++ ·)) := by
  rcases p with _ | p
  · exact .stopped nofun
  · cases p with
    | errorPayload c =>
      show Writes cap (putByte cap st c) (some (out ++ [c]))
      rw [putByte_eq_putBytes]
      exact h.writes_putBytes [c]
    | readCoilsResponse vs | readDiscreteInputsResponse vs => exact h.writes_putCounted (packBits vs)
    | readRegistersResponse vs | readInputsResponse vs =>
      show Writes cap _ ((registersBody vs).map _)
      rw [registersBody_eq_countedBody]
      exact h.writes_putCounted (vs.flatMap wordBytes)
    | writeCoilResponse | writeRegisterResponse | writeCoilsResponse | writeRegistersResponse => exact h.writes_putBytes _
    | readCoilsRequest | readDiscreteInputsRequest | readRegistersRequest | readInputsRequest | writeCoilRequest
    | writeRegisterRequest | writeCoilsRequest | writeRegistersRequest => exact .stopped nofun

theorem foldl_crcByte_writeOffset (d : List Byte) (w : WorkingState) :
    (d.foldl crcByte w).writeOffset = w.writeOffset := by
  induction d generalizing w with
  | nil => rfl
  | cons b d ih => rw [List.foldl_cons, ih, crcByte_writeOffset]

/-- The CRC, from the seed, over everything written so far (R26, R148). -/
def putCrc (cap : Nat) (st : WorkingState × List Byte) : Option (WorkingState × List Byte) :=
  let w := st.2.foldl crcByte { st.1 with crc := crcSeed }
  putBytes cap (wordBytes (swap16 w.crc)) (w, st.2)

theorem HasWritten.writes_putCrc (h : HasWritten cap st out) :
    Writes cap (putCrc cap st) (some (out ++ wordBytes (compute out))) := by
  obtain ⟨rfl, hoff, hle⟩ := h
  rw [putCrc, foldl_crcByte_crc]
  have hst : HasWritten cap (st.2.foldl crcByte { st.1 with crc := crcSeed }, st.2) st.2 :=
    ⟨rfl, (foldl_crcByte_writeOffset _ _).trans hoff, hle⟩
  exact hst.writes_putBytes _

theorem HasWritten.start (cap : Nat) : HasWritten cap (WorkingState.start, []) [] := ⟨rfl, rfl, Nat.zero_le cap⟩

end Writer

/-- The renderer's three parts, in order: header, body, CRC. -/
def writeFrame (cap : Nat) (f : Frame) (w : WorkingState) : Option (WorkingState × List Byte) :=
  ((putBytes cap [f.header.slaveAddress, f.header.command] (w, [])).bind (putBody cap f.payload)).bind (putCrc cap)

theorem renderStream_eq_map (cap : Nat) (f : Frame) (w : WorkingState) :
    renderStream cap f w = (writeFrame cap f w).map Prod.snd := by
  simp [renderStream, writeFrame, putCrc, Option.map_eq_bind, Option.bind_assoc]

/-- The renderer writes the image of SERIALIZE, or stops where there is none or it does not fit. -/
theorem writeFrame_writes (cap : Nat) (f : Frame) :
    Writes cap (writeFrame cap f WorkingState.start) ((bodyOf f).map (imageOf f.header)) := by
  have himage : (bodyOf f).map (imageOf f.header) =
      ((some [f.header.slaveAddress, f.header.command]).bind fun out => (bodyOf f).map (out ++ ·)).bind
        fun out => some (out ++ wordBytes (compute out)) := by
    cases bodyOf f <;> rfl
  rw [himage]
  exact (((HasWritten.start cap).writes_putBytes _).bind (by simp)
    fun _ _ h => h.writes_putBody f.header f.payload).bind (by simp) fun _ _ h => h.writes_putCrc

/-- SERIALIZE of an accepted frame fails where there is no image or it does not fit (R147, R149, R150). -/
theorem serializeFrame_of_not_fits {f : Frame} {s : State} (h : frameAccepted s.params f = true)
    (hfit : ∀ img ∈ (bodyOf f).map (imageOf f.header), s.params.outCap < img.length) :
    serializeFrame f s = .next s.serializeFail := by
  rw [serializeFrame_of_accepted f s h]
  cases hb : bodyOf f with
  | none => rfl
  | some bs => exact if_pos (hfit _ (hb ▸ rfl))

/-- SERIALIZE of an accepted frame succeeds with an image that fits (R148). -/
theorem serializeFrame_of_fits {f : Frame} {s : State} (h : frameAccepted s.params f = true) {img : List Byte}
    (himg : (bodyOf f).map (imageOf f.header) = some img) (hfit : img.length ≤ s.params.outCap) :
    serializeFrame f s = .next (s.serializeOk img) := by
  obtain ⟨bs, hb, rfl⟩ := Option.map_eq_some_iff.1 himg
  rw [serializeFrame_of_accepted f s h, hb]
  exact if_neg (Nat.not_lt.2 hfit)

/-- Settles O57: the renderer writes SERIALIZE's image whole, or stops where SERIALIZE fails. -/
theorem renderStreamAgrees : Obligations.RenderStreamAgrees := by
  intro s f h
  have hw := writeFrame_writes s.params.outCap f
  rw [renderStream_eq_map]
  generalize writeFrame s.params.outCap f WorkingState.start = x at hw
  generalize hy : (bodyOf f).map (imageOf f.header) = y at hw
  cases hw with
  | done hout =>
    obtain ⟨rfl, -, hfit⟩ := hout
    exact renders_of_ok hfit (serializeFrame_of_fits h hy hfit)
  | stopped hstop => exact failsToRender_of_fail (serializeFrame_of_not_fits h (hy ▸ hstop))

end Sys2Proof.Machine
end

section
/-! SUPPORT. Which commands have a meaning (60_exceptions.md R160, R164): each check of an operand lets a command
complete or refuses it, nothing faults, and a host that keeps its duties never meets a refusal. -/

namespace Sys2Proof.Machine

/-! ## Refused commands -/

/-- 0x09 and the bytes from 0x0C up are the value of no exception code (R32). -/
theorem exceptionCode_toByte_range (x : ExceptionCode) : x.toByte ≠ 0x09 ∧ x.toByte.toNat < 0x0C := by
  cases x <;> decide

theorem serializeError_of_unlisted {c : Byte} (hc : c = 0x09 ∨ 0x0C ≤ c.toNat) (h : CommandHeader) (s : State) :
    serializeError h c s = .refused (.notAnExceptionCode c) := by
  refine serializeError_of_not_isSome (fun hsome => ?_) h s
  obtain ⟨x, hx⟩ := Option.isSome_iff_exists.1 hsome
  obtain rfl := (ExceptionCode.ofByte?_eq_some c x).1 hx
  obtain ⟨h9, h12⟩ := exceptionCode_toByte_range x
  exact hc.elim h9 (Nat.not_le.2 h12)

theorem finishSerialize_of_not_fits {n : Nat} {s : State} (hn : withinCap s.params.bitsCap n = false)
    (h : CommandHeader) (body : Option (List Byte)) : finishSerialize h body n s = .refused (.operandTooLong n) :=
  guardValues_of_not_fits n s _ hn

/-- Only a frame with a value sequence is too long, and that frame is no ErrorPayload (R41, R164). -/
theorem serializeFrame_of_too_many_values {f : Frame} {s : State}
    (hn : withinCap s.params.bitsCap (frameValueCount f) = false) :
    serializeFrame f s = .refused (.operandTooLong (frameValueCount f)) := by
  rw [serializeFrame_eq_finish f s fun c hc => ?_]
  · exact finishSerialize_of_not_fits hn f.header (bodyOf f)
  · have hzero : frameValueCount f = 0 := by rw [frameValueCount, hc]
    rw [hzero, withinCap_zero] at hn
    cases hn

/-- A command opcode outside 0x01 to 0x06 is illegal, whatever stands on the operand ports (R83). -/
theorem decode_command_illegal {opcode : Byte} (h : opcode.toNat = 0 ∨ 7 ≤ opcode.toNat) (p : Ports) :
    decode (.command opcode p) = .error (.illegalOpcode opcode) := by
  rw [decode, decodeCommand]
  split
  case h_7 => rfl
  all_goals omega

/-- A word that the decoder rejects is refused, whatever the host does next (R83, R164). -/
theorem hostEvent_issue_of_decode_error {w : PortWord} {err : DecodeError} (h : decode w = .error err) (d : During)
    (s : State) : hostEvent (.issue w d) s = .refused (refusalOf err) := by simp [hostEvent, h]

/-- Settles O8: the decoder's refusal, the refusal of a byte that is no exception code, the two limits on operands, and
the overlapping command. -/
theorem commandsWithoutMeaningAreRefused : Obligations.CommandsWithoutMeaningAreRefused := by
  refine ⟨fun s opcode p during rest hq hop => ?_, fun s h c addr fc hc => ?_, fun s d m hd => ?_,
    fun s bits => guardValues_of_not_fits bits.length s _, fun s f => serializeFrame_of_too_many_values,
    fun s w i rest hq hw => ?_⟩
  · rw [step_cons s _ rest hq]
    exact hostEvent_issue_of_decode_error (decode_command_illegal hop p) during _
  · have hr := serializeError_of_unlisted hc h s
    exact ⟨hr, hr, serializeError_of_unlisted hc ⟨addr, fc ||| 0x80⟩ s⟩
  · have hr := guardInput_of_not_fits d s
    exact ⟨hr _ hd, hr _ hd, hr _ hd, hr _ hd⟩
  · rw [step_cons s _ rest hq, hostEvent_issue_of_decode hw]
    rfl

/-! ## A command completes or is refused -/

/-- What a command answers by whether it has a meaning: a next state, or a refusal. There is no fault among the answers
(R160). -/
inductive CompletesIff : Bool → StepOutcome → Prop
  | completes (t : State) : CompletesIff true (.next t)
  | refuses (r : Refusal) : CompletesIff false (.refused r)

theorem CompletesIff.eq_next {o : StepOutcome} (h : CompletesIff true o) : ∃ t, o = .next t := by
  cases h with
  | completes t => exact ⟨t, rfl⟩

theorem CompletesIff.eq_refused {o : StepOutcome} (h : CompletesIff false o) : ∃ r, o = .refused r := by
  cases h with
  | refuses r => exact ⟨r, rfl⟩

theorem CompletesIff.ne_fault {b : Bool} {o : StepOutcome} (h : CompletesIff b o) (x : Fault) : o ≠ .fault x := by
  cases h <;> exact nofun

theorem guardInput_completesIff (d : List Byte) (s t : State) :
    CompletesIff (withinCap s.params.inCap d.length) (guardInput d s (.next t)) := by
  cases hd : withinCap s.params.inCap d.length with
  | true => exact guardInput_of_fits d s _ hd ▸ .completes t
  | false => exact guardInput_of_not_fits d s _ hd ▸ .refuses _

theorem guardValues_completesIff (n : Nat) (s t : State) :
    CompletesIff (withinCap s.params.bitsCap n) (guardValues n s (.next t)) := by
  cases hn : withinCap s.params.bitsCap n with
  | true => exact guardValues_of_fits n s _ hn ▸ .completes t
  | false => exact guardValues_of_not_fits n s _ hn ▸ .refuses _

/-- The state an accepted SERIALIZE ends in: a failure, or a success with an image that fits (R149). -/
theorem serializeFrame_eq_next_of_accepted {f : Frame} {s : State} (h : frameAccepted s.params f = true) :
    ∃ t, serializeFrame f s = .next t := by
  rw [serializeFrame_of_accepted f s h]
  cases bodyOf f with
  | none => exact ⟨_, rfl⟩
  | some bs => exact ⟨_, (apply_ite Host.Outcome.next _ _ _).symm⟩

theorem serializeFrame_eq_refused_of_not_accepted {f : Frame} {s : State} (h : frameAccepted s.params f = false) :
    ∃ r, serializeFrame f s = .refused r := by
  cases hn : withinCap s.params.bitsCap (frameValueCount f) with
  | false => exact ⟨_, serializeFrame_of_too_many_values hn⟩
  | true =>
    have hcode : ¬ ∀ c, f.payload = some (.errorPayload c) → (ExceptionCode.ofByte? c).isSome = true :=
      fun hm => Bool.false_ne_true (h.symm.trans ((frameAccepted_iff s.params f).2 ⟨hn, hm⟩))
    push Not at hcode
    obtain ⟨c, hc, hnot⟩ := hcode
    exact ⟨.notAnExceptionCode c, by
      rw [serializeFrame, hc]
      exact serializeError_of_not_isSome hnot f.header s⟩

theorem serializeFrame_completesIff (f : Frame) (s : State) :
    CompletesIff (frameAccepted s.params f) (serializeFrame f s) := by
  cases h : frameAccepted s.params f with
  | true =>
    obtain ⟨t, ht⟩ := serializeFrame_eq_next_of_accepted h
    exact ht ▸ .completes t
  | false =>
    obtain ⟨r, hr⟩ := serializeFrame_eq_refused_of_not_accepted h
    exact hr ▸ .refuses r

/-- A well-formed instruction answers as its command does: PACK by its value sequence, SERIALIZE by its frame, and the
other commands by their span. -/
theorem exec_completesIff {i : Instr} (s : State) (hi : i.wf = true) :
    CompletesIff (accepted s.params i) (exec i s) := by
  rw [rowsRunTheirCommand i s hi]
  cases i with
  | pack bits => exact guardValues_completesIff bits.length s _
  | crc16 | unpack | unpackMax | parse | parseReadCoils | parseReadDiscreteInputs | parseReadHoldingRegisters
  | parseReadInputRegisters | parseWriteSingleCoil | parseWriteSingleHoldingRegister | parseWriteMultipleCoils
  | parseWriteMultipleHoldingRegisters | parseIllegalFunction => exact guardInput_completesIff _ s _
  | serialize | excresp | serializeErrorPayload | serializeReadCoilsResponse | serializeReadDiscreteInputsResponse
  | serializeReadRegistersResponse | serializeReadInputsResponse | serializeWriteCoilResponse
  | serializeWriteRegisterResponse | serializeWriteCoilsResponse | serializeWriteRegistersResponse
  | serializeUnrenderable => exact serializeFrame_completesIff _ s

/-- Settles O6: every check lets a command complete or refuses it. -/
theorem acceptedCommandsComplete : Obligations.AcceptedCommandsComplete := by
  intro i s hi
  have h := exec_completesIff s hi
  exact ⟨fun ha => (ha ▸ h).eq_next, fun ha => (ha ▸ h).eq_refused, h.ne_fault⟩

/-! ## A dutiful host -/

/-- The interactions that keep the host's duties: a command with a meaning for which the host waits, a reset during a
command, a reset of the idle block, a write of a byte of `Out` that exists (R184, R185). -/
theorem HostEvent.dutiful_iff (p : Params) (e : HostEvent) :
    e.dutiful p = true ↔
      (∃ w i, e = .issue w .quiet ∧ decode w = .ok i ∧ accepted p i = true) ∨
      (∃ w i, e = .issue w .reset ∧ decode w = .ok i) ∨
      e = .reset ∨
      (∃ a v, e = .writeOut a v ∧ a < p.outCap) := by
  cases e with
  | issue w d =>
    cases d with
    | quiet | reset => cases hw : decode w <;> simp [HostEvent.dutiful, hw]
    | anotherCommand | bufferAccess => simp [HostEvent.dutiful]
  | reset => simp [HostEvent.dutiful]
  | writeOut a v => simp [HostEvent.dutiful]

/-- An interaction that keeps the host's duties has a next state; a word that decodes gives a well-formed instruction,
so an accepted command completes. -/
theorem hostEvent_eq_next_of_dutiful {e : HostEvent} {s : State} (h : e.dutiful s.params = true) :
    ∃ t, hostEvent e s = .next t := by
  obtain ⟨w, i, rfl, hw, ha⟩ | ⟨w, i, rfl, hw⟩ | rfl | ⟨a, v, rfl, ha⟩ := (HostEvent.dutiful_iff s.params e).1 h
  · rw [hostEvent_issue_of_decode hw]
    exact (acceptedCommandsComplete i s (wordsExpandToTheirCommand w i hw).1).1 ha
  · rw [hostEvent_issue_of_decode hw]
    exact ⟨s.abandon, rfl⟩
  · exact ⟨s.resetIdle, hostEvent_reset s⟩
  · exact ⟨_, hostEvent_writeOut_of_lt s v ha⟩

theorem State.dutiful_iff (s : State) : s.dutiful = true ↔ ∀ e ∈ s.host, e.dutiful s.params = true :=
  List.all_eq_true

/-- A step only shortens the queue, so what is still to come keeps the host's duties. -/
theorem step_keeps_dutiful {s t : State} (hs : s.dutiful = true) (h : step s = .next t) : t.dutiful = true := by
  obtain ⟨hparams, hhost⟩ := everyStepTakesOneInteraction s t h
  rw [State.dutiful_iff] at hs ⊢
  rw [hparams, hhost]
  exact fun e he => hs e (List.mem_of_mem_tail he)

theorem step_eq_next_of_dutiful {s : State} (hs : s.dutiful = true) : ∃ t, step s = .next t := by
  cases hq : s.host with
  | nil => exact ⟨s, step_idle s hq⟩
  | cons e rest =>
    have he : e.dutiful s.params = true := (State.dutiful_iff s).1 hs e (hq ▸ List.mem_cons_self)
    rw [step_cons s e rest hq]
    exact hostEvent_eq_next_of_dutiful (s := { s with host := rest }) he

/-- Settles O7: a dutiful interaction has a next state, and the step that takes it keeps the rest of the queue. -/
theorem dutifulHostNeverStops : Obligations.DutifulHostNeverStops := by
  intro s hs
  obtain ⟨t, ht⟩ := step_eq_next_of_dutiful hs
  exact ⟨t, ht, step_keeps_dutiful hs ht⟩

end Sys2Proof.Machine
end

section
/-! SUPPORT. The three causes of a SERIALIZE failure (60_exceptions.md R163): rule R153's table and the body that
SERIALIZE renders. -/

namespace Sys2Proof.Machine

/-- A row of rule R153's table and a body: a shape without a rendering has none, an image of size `n` is its body and
four more bytes, and no body has a byte count above 255 (R150). -/
inductive HasSize : Option (Nat × Nat) → Option (List Byte) → Prop
  | unrenderable : HasSize none none
  | tooMany {n count : Nat} (h : 255 < count) : HasSize (some (n, count)) none
  | image {n count : Nat} {bs : List Byte} (h : count ≤ 255) (hn : bs.length + 4 = n) :
      HasSize (some (n, count)) (some bs)

theorem countedBody_hasSize (data : List Byte) {count : Nat} (hcount : data.length = count) :
    HasSize (some (5 + count, count)) (countedBody data) := by
  subst hcount
  by_cases h : data.length ≤ 255
  · rw [countedBody_of_le h]
    exact .image h (by rw [List.length_cons]; omega)
  · rw [countedBody_of_gt (Nat.not_le.1 h)]
    exact .tooMany (Nat.not_le.1 h)

/-- Rule R153's table gives the size of every layout's body. -/
theorem bodyOf_hasSize (f : Frame) : HasSize (frameSize f) (bodyOf f) := by
  obtain ⟨h, _ | p⟩ := f
  · exact .unrenderable
  · cases p with
    | errorPayload => exact .image (Nat.zero_le _) rfl
    | readCoilsResponse vs | readDiscreteInputsResponse vs =>
      exact countedBody_hasSize (packBits vs) (packBits_length vs)
    | readRegistersResponse vs | readInputsResponse vs =>
      show HasSize _ (registersBody vs)
      rw [registersBody_eq_countedBody]
      exact countedBody_hasSize _ (flatMap_wordBytes_length vs)
    | writeCoilResponse | writeRegisterResponse | writeCoilsResponse | writeRegistersResponse =>
      exact .image (Nat.zero_le _) rfl
    | readCoilsRequest | readDiscreteInputsRequest | readRegistersRequest | readInputsRequest | writeCoilRequest
    | writeRegisterRequest | writeCoilsRequest | writeRegistersRequest => exact .unrenderable

/-- An accepted frame without a body fails (R147, R150). -/
theorem failsToRender_of_no_body {f : Frame} {s : State} (h : frameAccepted s.params f = true) (hb : bodyOf f = none) :
    FailsToRender (.serialize f) s :=
  failsToRender_of_fail (serializeFrame_of_not_fits h (by simp [hb]))

/-- Settles O52: the table says whether there is a body and how long its image is, and then `Out` has room for it or
not. -/
theorem serializeFailsForThreeCauses : Obligations.SerializeFailsForThreeCauses := by
  intro s f h
  have hsize := bodyOf_hasSize f
  generalize frameSize f = size at hsize
  generalize hb : bodyOf f = body at hsize
  cases hsize with
  | unrenderable => exact failsToRender_of_no_body h hb
  | tooMany hcount => exact (if_pos (.inr hcount)).mpr (failsToRender_of_no_body h hb)
  | @image n count bs hcount hn =>
    have himg : (bodyOf f).map (imageOf f.header) = some (imageOf f.header bs) := by rw [hb, Option.map_some]
    have hlen : (imageOf f.header bs).length = n := (imageOf_length f.header bs).trans hn
    by_cases hfit : n ≤ s.params.outCap
    · have hout := hlen.trans_le hfit
      exact (if_neg (not_or.2 ⟨Nat.not_lt.2 hfit, Nat.not_lt.2 hcount⟩)).mpr
        ⟨_, hlen, renders_of_ok hout (serializeFrame_of_fits h himg hout)⟩
    · refine (if_pos (.inl (Nat.not_le.1 hfit))).mpr
        (failsToRender_of_fail (serializeFrame_of_not_fits h fun img hmem => ?_))
      obtain rfl := Option.mem_some_iff.1 (himg ▸ hmem)
      exact hlen ▸ Nat.not_le.1 hfit

end Sys2Proof.Machine
end

section
/-! SUPPORT. A reset during a command, and a host that moves its cursor as PARSE tells it (70_reset_and_hazards.md). -/

namespace Sys2Proof.Machine

/-! ## A reset during a command -/

/-- What `Out` reads as after a command has been abandoned: a free value at every offset that exists (R181, D23). -/
theorem State.abandon_outByte_of_lt (s : State) {a : Nat} (ha : a < s.params.outCap) :
    s.abandon.outByte a = some (Config.freeByte s.draws a) := by
  rw [State.abandon_outByte, State.unspecifyOut_outByte, if_pos ⟨Nat.zero_le a, ha⟩]

theorem step_of_issue_reset {s : State} {w : PortWord} {rest : List HostEvent} {i : Instr}
    (hq : s.host = .issue w .reset :: rest) (h : decode w = .ok i) :
    step s = .next ({ s with host := rest } : State).abandon := by
  rw [step_cons s _ rest hq, hostEvent_issue_of_decode h]
  rfl

/-- Settles O9: the word decodes, so a command is in progress, and the reset abandons it. -/
theorem resetDuringCommandAbandonsIt : Obligations.ResetDuringCommandAbandonsIt := by
  intro s w i rest hq hw
  exact ⟨_, step_of_issue_reset hq hw, rfl, rfl, rfl, rfl, rfl,
    fun _ => State.abandon_outByte_of_lt { s with host := rest }⟩

/-! ## The host's cursor -/

theorem ParseResult.nextOffset_of_incomplete {r : ParseResult} (h : r.parseClass = .incomplete) (c : Nat) :
    r.nextOffset c = c := by
  rw [ParseResult.nextOffset, h]

theorem ParseResult.nextOffset_of_not_incomplete {r : ParseResult} (h : r.parseClass ≠ .incomplete) (c : Nat) :
    r.nextOffset c = c + r.bytesRead := by
  rw [ParseResult.nextOffset]
  cases hclass : r.parseClass with
  | incomplete => exact absurd hclass h
  | rejected | ok => rfl

/-- PARSE consumes no more than its span, and exactly Incomplete consumes nothing (R129). -/
theorem ParsesTo.bytesRead_bounds {d : List Byte} {r : ParseResult} (h : ParsesTo d r) :
    r.bytesRead ≤ d.length ∧ (r.parseClass = .incomplete ↔ r.bytesRead = 0) := by
  obtain ⟨r', h', hnone, hle, -, -, hclass, -⟩ := parseResultTable d
  obtain rfl := h.unique h'
  exact ⟨hle, hclass.trans hnone⟩

/-- Settles O44: Incomplete leaves the cursor where it is, and every other result has consumed at least one byte of the
span, which ends where the buffer ends. -/
theorem hostCursorStaysInBuffer : Obligations.HostCursorStaysInBuffer := by
  intro buffer c r hc hr
  obtain ⟨hle, hzero⟩ := hr.bytesRead_bounds
  rw [List.length_drop] at hle
  by_cases h : r.parseClass = .incomplete
  · rw [ParseResult.nextOffset_of_incomplete h]
    exact ⟨hc, fun _ => rfl, absurd h⟩
  · have hpos : 0 < r.bytesRead := Nat.pos_of_ne_zero (mt hzero.2 h)
    rw [ParseResult.nextOffset_of_not_incomplete h]
    exact ⟨by omega, (absurd · h), fun _ => ⟨rfl, by omega⟩⟩

end Sys2Proof.Machine
end
